-- ==== Sys2Proof/Config.lean ====
section
/-! DEFINITION. Config: what one instance of the hardware fixes (00_scope.md R5 to R8), the answers the two external
channels can give (00_scope.md R11, 43_io.md R180, R181), and the free values that stand for what the spec leaves to
the outside world. -/

namespace Sys2Proof

/-- One byte, as the two channels carry it (43_io.md R180, R181). -/
abbrev Byte := BitVec 8

/-- The parameters of the ring arithmetic unit with the checks of 00_scope.md R6. The proofs are fields, so a
configuration that R6 calls an error has no value here: "a model refuses such a configuration: it has no machine for
it". -/
structure RauConfig where
  /-- B, the radix of the digit decomposition. -/
  base : Nat
  /-- N, the digit count. -/
  digits : Nat
  /-- W, the width in bits of every register, memory word and operand. -/
  width : Nat
  base_ge_two : 2 ≤ base
  digits_ge_one : 1 ≤ digits
  width_fits : base ^ digits ≤ 2 ^ width
  deriving DecidableEq, Repr

/-- END = B^N, the ring modulus (00_scope.md R5, 40_ring_unit.md R91). -/
def RauConfig.modulus (c : RauConfig) : Nat := c.base ^ c.digits

/-- DW = bitlen(B − 1), the width of one digit on the digit port (00_scope.md R5). -/
def RauConfig.digitWidth (c : RauConfig) : Nat := Nat.log2 (c.base - 1) + 1

theorem RauConfig.base_pos (c : RauConfig) : 0 < c.base := Nat.lt_of_lt_of_le Nat.two_pos c.base_ge_two

theorem RauConfig.modulus_pos (c : RauConfig) : 0 < c.modulus := Nat.pow_pos c.base_pos

theorem RauConfig.modulus_le (c : RauConfig) : c.modulus ≤ 2 ^ c.width := c.width_fits

theorem RauConfig.two_le_modulus (c : RauConfig) : 2 ≤ c.modulus :=
  Nat.le_trans c.base_ge_two (Nat.le_self_pow (Nat.one_le_iff_ne_zero.mp c.digits_ge_one) c.base)

/-- The parameters of the whole block: those of the RAU, the open parameter CAUSE_W (00_scope.md R5, decision D8), and
the bound END ≥ 257 the CORE asks for (00_scope.md R7). -/
structure Config extends RauConfig where
  /-- CAUSE_W, the width in bits of the opaque I/O failure cause. -/
  causeWidth : Nat
  causeWidth_ge_one : 1 ≤ causeWidth
  end_ge_257 : 257 ≤ base ^ digits
  deriving DecidableEq, Repr

theorem Config.byte_lt_modulus (cfg : Config) {n : Nat} (h : n < 256) : n < cfg.toRauConfig.modulus :=
  Nat.lt_of_lt_of_le (Nat.lt_succ_of_lt h) cfg.end_ge_257

/-- The canonical configuration of 00_scope.md R8: B = 3, N = 10, W = 16, so END = 59049 and MAX = 59048.
CAUSE_W is OPEN in the spec; 8 is a DESIGN CHOICE (log 2) that no statement rests on. -/
def Config.canonical : Config where
  base := 3
  digits := 10
  width := 16
  causeWidth := 8
  base_ge_two := by decide
  digits_ge_one := by decide
  width_fits := by decide
  causeWidth_ge_one := by decide
  end_ge_257 := by decide

/-- The answer of one input transaction (00_scope.md R11, 43_io.md R180): in_kind 0, 1 and 2. in_kind = 3 is no answer
(93_implementation_defined.md U7). The cause is the channel's own opaque value; the CORE keeps CAUSE_W bits of it. -/
inductive InAnswer where
  | byte (b : Byte)
  | endOfStream
  | failure (cause : Nat)
  deriving DecidableEq, Repr

/-- The answer of one output transaction (00_scope.md R11, 43_io.md R181). -/
inductive OutAnswer where
  | ok
  | failure (cause : Nat)
  deriving DecidableEq, Repr

/-- FREE VALUE (log 5). What the input port shows the `n`-th time it is sampled, where the host has lined nothing up:
`none` is in_valid = 0, so a channel may delay, answer anything, or never answer (43_io.md R182, R189; U3, U6, U13). -/
opaque Config.freeInSample : Nat → Option InAnswer

/-- FREE VALUE (log 5). The same for the output port: `none` is out_valid = 0 (43_io.md R182, R189; U3, U6). -/
opaque Config.freeOutSample : Nat → Option OutAnswer

/-- FREE VALUE (log 8). The RAU output `r` where 40_ring_unit.md R108 leaves it unspecified. -/
opaque Config.freeRauResult (c : RauConfig) (op : BitVec 3) (x y : BitVec c.width) : BitVec c.width

/-- FREE VALUE (log 8). The RAU output `dig` where 40_ring_unit.md R108 leaves it unspecified. -/
opaque Config.freeRauDigits (c : RauConfig) (op : BitVec 3) (x y : BitVec c.width) :
    BitVec (c.digits * c.digitWidth)

end Sys2Proof
end

