-- ==== Sys2Proof/Word.lean ====
section
/-! DEFINITION. Word: the ring element, the one word type of registers, memory and operands (00_scope.md R9), and its
plain conversions to and from integers and W-bit buses. -/

namespace Sys2Proof

/-- A ring element, an integer in [0, END) (00_scope.md R9; 10_state.md R26 allows this typing). -/
abbrev RingElem (c : RauConfig) := Fin c.modulus

/-- The ring elements of a whole-block configuration. -/
abbrev Config.Elem (cfg : Config) := RingElem cfg.toRauConfig

/-- The ring element 0. -/
def RingElem.zero (c : RauConfig) : RingElem c := ⟨0, c.modulus_pos⟩

/-- MAX = END − 1, the largest ring element and the end-of-stream sentinel (00_scope.md R5, 43_io.md R187). -/
def RingElem.max (c : RauConfig) : RingElem c := ⟨c.modulus - 1, Nat.sub_lt c.modulus_pos Nat.one_pos⟩

/-- `n mod END` as a ring element: the one reduction every modulo-END operation ends in. -/
def RingElem.reduce (c : RauConfig) (n : Nat) : RingElem c := ⟨n % c.modulus, Nat.mod_lt n c.modulus_pos⟩

/-- The ring element of value `n`, where there is one. -/
def RingElem.ofNat? (c : RauConfig) (n : Nat) : Option (RingElem c) :=
  if h : n < c.modulus then some ⟨n, h⟩ else none

/-- A ring element on a W-bit bus: unsigned binary, bit 0 least significant (00_scope.md R9, decision D1). -/
def RingElem.toBus {c : RauConfig} (x : RingElem c) : BitVec c.width := BitVec.ofNat c.width x.val

/-- The ring element a W-bit bus carries; the patterns above MAX are none (00_scope.md R9). -/
def RingElem.ofBus? (c : RauConfig) (v : BitVec c.width) : Option (RingElem c) := RingElem.ofNat? c v.toNat

end Sys2Proof
end

