-- ==== Sys2Proof/Syntax.lean ====
section
/-! DEFINITION. Syntax: the eight instructions of 00_scope.md R2, one constructor for each row of
spec/opcode_table.json. No instruction has a field or an explicit operand (30_encoding.md R70, R71). -/

namespace Sys2Proof

/-- The instruction set, named by the spec's labels (30_encoding.md R72). -/
inductive Instr where
  /-- `!` HALT (42_instructions.md R160). -/
  | halt
  /-- `*` LDD, load D indirect (42_instructions.md R161). -/
  | ldd
  /-- `>` ROT, rotate memory right (42_instructions.md R162). -/
  | rot
  /-- `^` JMP, jump (42_instructions.md R163). -/
  | jmp
  /-- `_` NOP, explicit no-op (42_instructions.md R164). -/
  | nop
  /-- The left brace, OUT, write byte (43_io.md R183); the table's row ROW. -/
  | out
  /-- `|` SUB, digit subtract (42_instructions.md R165). -/
  | sub
  /-- The right brace, IN, read byte (43_io.md R184); the table's row ROW_2. -/
  | inp
  deriving DecidableEq, Repr

end Sys2Proof
end

