-- ==== Sys2Proof/WellFormed.lean ====
section
/-! DEFINITION. WellFormed: the checks made before anything runs. An instruction has no field that could be wrong;
what is checked is the configuration, at elaboration (00_scope.md R6, R7; 60_exceptions.md R202), and the memory image
the loader brings (20_memory.md R60, R61). -/

namespace Sys2Proof

/-- Every instruction is well formed: it has no field (30_encoding.md R70, R71, R74). -/
def Instr.wellFormed : Instr → Bool
  | .halt => true
  | .ldd => true
  | .rot => true
  | .jmp => true
  | .nop => true
  | .out => true
  | .sub => true
  | .inp => true

/-- The configuration errors of 00_scope.md R5, R6 and R7, each "fatal and reported before any VM instance can be
built". -/
inductive ConfigError where
  /-- B < 2 (R6). -/
  | baseTooSmall
  /-- N = 0 (R6). -/
  | noDigits
  /-- W too narrow to hold B^N − 1 (R6). -/
  | widthTooNarrow
  /-- CAUSE_W = 0, outside the legal values of R5. -/
  | causeWidthZero
  /-- END ≤ 256, an error for the CORE only (R7). -/
  | endBelow257
  deriving DecidableEq, Repr

/-- Elaboration of an RAU (00_scope.md R6): an instance, or the first error found. -/
def RauConfig.elaborate (base digits width : Nat) : Except ConfigError RauConfig :=
  if hb : 2 ≤ base then
    if hn : 1 ≤ digits then
      if hw : base ^ digits ≤ 2 ^ width then .ok ⟨base, digits, width, hb, hn, hw⟩
      else .error .widthTooNarrow
    else .error .noDigits
  else .error .baseTooSmall

/-- Elaboration of the whole block (00_scope.md R6, R7): an instance, or the first error found. -/
def Config.elaborate (base digits width causeWidth : Nat) : Except ConfigError Config :=
  match RauConfig.elaborate base digits width with
  | .error e => .error e
  | .ok rau =>
    if hc : 1 ≤ causeWidth then
      if hm : 257 ≤ rau.base ^ rau.digits then .ok ⟨rau, causeWidth, hc, hm⟩
      else .error .endBelow257
    else .error .causeWidthZero

/-- An image the loader may bring: at most END words, each a ring element (20_memory.md R60, R61). -/
def Config.imageWellFormed (cfg : Config) (image : List Nat) : Bool :=
  decide (image.length ≤ cfg.toRauConfig.modulus) && image.all (fun w => decide (w < cfg.toRauConfig.modulus))

end Sys2Proof
end

