-- ==== Sys2Proof/Decode.lean ====
section
/-! DEFINITION. Decode: the opcode map of 30_encoding.md R72, the decoder (R73, 41_execution_core.md R135), total on
every word value, and after it the encoder. -/

namespace Sys2Proof

/-- What decoding a word gives: one of the eight instructions, or UNMAPPED, the named default of
41_execution_core.md R135. No word is illegal (30_encoding.md R74). -/
inductive Decoded where
  | instr (i : Instr)
  | unmapped
  deriving DecidableEq, Repr

/-- The opcode map, row by row as 30_encoding.md R72 lists it: the word value and the instruction it selects. -/
def opcodeTable : List (Nat × Instr) :=
  [(33, .halt), (42, .ldd), (62, .rot), (94, .jmp), (95, .nop), (123, .out), (124, .sub), (125, .inp)]

/-- Decode a whole word: only an exact match selects an instruction, and the word is not cut to a byte
(30_encoding.md R73, decision D3). -/
def decode (w : Nat) : Decoded :=
  match opcodeTable.find? (fun row => row.1 == w) with
  | some row => .instr row.2
  | none => .unmapped

/-- The instruction a decoding selects; UNMAPPED selects none. -/
def Decoded.instr? : Decoded → Option Instr
  | .instr i => some i
  | .unmapped => none

/-- The instruction the decoder reads from the `nbits` bits of `w`, numbered as spec/opcode_table.json numbers them.
An instruction is one word of W = 16 bits in the table's configuration (30_encoding.md R70), bit 0 least significant,
and the bits above `nbits` are 0. -/
def decodeTableWord (nbits w : Nat) : Option Instr :=
  (decode (w % 2 ^ nbits % 2 ^ Config.canonical.width)).instr?

/-- The word value of an instruction (30_encoding.md R72). -/
def encode : Instr → Nat
  | .halt => 33
  | .ldd => 42
  | .rot => 62
  | .jmp => 94
  | .nop => 95
  | .out => 123
  | .sub => 124
  | .inp => 125

theorem encode_lt (i : Instr) : encode i < 256 := by cases i <;> decide

/-- The memory word of an instruction, a ring element of every CORE configuration (00_scope.md R7). -/
def encodeWord (cfg : Config) (i : Instr) : cfg.Elem := ⟨encode i, cfg.byte_lt_modulus (encode_lt i)⟩

end Sys2Proof
end

