-- ==== Sys2Proof/Machine/Rau.lean ====
section
/-! DEFINITION. Rau: the ring arithmetic unit (40_ring_unit.md): digit decomposition and recomposition, the seven
operations, their op codes (30_encoding.md R78) and the unit's ports (40_ring_unit.md R106 to R108). No state: every
operation is a total function (R90). It accepts every configuration that passes 00_scope.md R6. -/

namespace Sys2Proof.Machine

variable {c : RauConfig}

/-- A digit vector, digit 0 the least significant (00_scope.md R10). -/
abbrev DigitVec (c : RauConfig) := Fin c.digits → Fin c.base

/-- The digit of weight B^i: (x div B^i) mod B (40_ring_unit.md R92). -/
def Rau.digit (x : RingElem c) (i : Fin c.digits) : Fin c.base :=
  ⟨x.val / c.base ^ i.val % c.base, Nat.mod_lt _ c.base_pos⟩

/-- All N digits at once, the digit decomposer (40_ring_unit.md R92). -/
def Rau.decompose (x : RingElem c) : DigitVec c := fun i => Rau.digit x i

/-- The multiply-accumulate of 40_ring_unit.md R93: the sum of d[i]·radix^i over the first `n` positions. -/
def Rau.radixSum (radix : Nat) : (n : Nat) → (Fin n → Nat) → Nat
  | 0, _ => 0
  | n + 1, d => Rau.radixSum radix n (fun i => d i.castSucc) + d (Fin.last n) * radix ^ n

/-- No partial sum exceeds MAX (40_ring_unit.md R93). -/
theorem Rau.radixSum_lt {radix : Nat} (hr : 0 < radix) :
    ∀ (n : Nat) (d : Fin n → Nat), (∀ i, d i < radix) → Rau.radixSum radix n d < radix ^ n
  | 0, _, _ => by simp [Rau.radixSum]
  | n + 1, d, h => by
    have ih := Rau.radixSum_lt hr n (fun i => d i.castSucc) (fun i => h _)
    have hl : d (Fin.last n) + 1 ≤ radix := h _
    have := Nat.mul_le_mul_right (radix ^ n) hl
    rw [Nat.add_mul] at this
    simp only [Rau.radixSum, Nat.pow_succ', Nat.one_mul] at *
    omega

/-- Recomposition: the digit-weight multiplier (40_ring_unit.md R93). Never above MAX, so no reduction. -/
def Rau.compose (d : DigitVec c) : RingElem c :=
  ⟨Rau.radixSum c.base c.digits (fun i => (d i).val), Rau.radixSum_lt c.base_pos _ _ (fun i => (d i).isLt)⟩

/-- isValid(x) on any W-bit pattern: 0 ≤ x ≤ MAX (40_ring_unit.md R96). -/
def Rau.isValid (x : BitVec c.width) : Bool := decide (x.toNat ≤ (RingElem.max c).val)

/-- succ(x) = (x + 1) mod END (40_ring_unit.md R97). -/
def Rau.succ (x : RingElem c) : RingElem c := RingElem.reduce c (x.val + 1)

/-- pred(x) = (x − 1) mod END (40_ring_unit.md R98), with END − 1 for −1. -/
def Rau.pred (x : RingElem c) : RingElem c := RingElem.reduce c (x.val + (c.modulus - 1))

/-- add(x, y) = (x + y) mod END, exact beyond W bits (40_ring_unit.md R99). -/
def Rau.add (x y : RingElem c) : RingElem c := RingElem.reduce c (x.val + y.val)

/-- sub(x, y) = (x − y) mod END (40_ring_unit.md R100), with END − y for −y. -/
def Rau.sub (x y : RingElem c) : RingElem c := RingElem.reduce c (x.val + (c.modulus - y.val))

/-- The digit vector of rotr: digit 0 moves to position N − 1, digit i + 1 to position i (40_ring_unit.md R101). -/
def Rau.rotateDigits (d : DigitVec c) : DigitVec c := fun i =>
  if h : i.val + 1 < c.digits then d ⟨i.val + 1, h⟩ else d ⟨0, c.digits_ge_one⟩

/-- rotr(x), the cyclic rotation of the digits by one place (40_ring_unit.md R101; the formula, by conflict C2). -/
def Rau.rotr (x : RingElem c) : RingElem c := Rau.compose (Rau.rotateDigits (Rau.decompose x))

/-- One digit lane of dsub: (B + dx − dy) mod B, no borrow in or out (40_ring_unit.md R102). -/
def Rau.subDigit (dx dy : Fin c.base) : Fin c.base :=
  ⟨(c.base + dx.val - dy.val) % c.base, Nat.mod_lt _ c.base_pos⟩

/-- dsub(x, y), digit by digit, x the minuend (40_ring_unit.md R102). -/
def Rau.dsub (x y : RingElem c) : RingElem c :=
  Rau.compose (fun i => Rau.subDigit (Rau.digit x i) (Rau.digit y i))

/-- The RAU operations that have an op code (30_encoding.md R78). Op 111 is reserved and has no constructor
(93_implementation_defined.md U2). -/
inductive RauOp where
  | add
  | sub
  | succ
  | pred
  | rotr
  | dsub
  | valid
  deriving DecidableEq, Repr

/-- The op code of an operation (30_encoding.md R78). -/
def Rau.opCode : RauOp → BitVec 3
  | .add => 0b000#3
  | .sub => 0b001#3
  | .succ => 0b010#3
  | .pred => 0b011#3
  | .rotr => 0b100#3
  | .dsub => 0b101#3
  | .valid => 0b110#3

/-- The operation an op code selects; 111 selects none (30_encoding.md R78). -/
def Rau.decodeOp (op : BitVec 3) : Option RauOp :=
  [RauOp.add, .sub, .succ, .pred, .rotr, .dsub, .valid].find? (fun o => Rau.opCode o == op)

/-- Does the operation use its second operand? (30_encoding.md R78, "operands used"; 40_ring_unit.md R106.) -/
def Rau.usesY : RauOp → Bool
  | .add => true
  | .sub => true
  | .succ => false
  | .pred => false
  | .rotr => false
  | .dsub => true
  | .valid => false

/-- The result of an operation on ring elements (40_ring_unit.md R107). VALID answers 1, widened to W bits. -/
def Rau.result (o : RauOp) (x y : RingElem c) : BitVec c.width :=
  match o with
  | .add => (Rau.add x y).toBus
  | .sub => (Rau.sub x y).toBus
  | .succ => (Rau.succ x).toBus
  | .pred => (Rau.pred x).toBus
  | .rotr => (Rau.rotr x).toBus
  | .dsub => (Rau.dsub x y).toBus
  | .valid => BitVec.ofNat c.width 1

/-- The port `dig`: digit i at bits [DW·i + DW − 1 : DW·i] (40_ring_unit.md R106). -/
def Rau.digitBus (x : RingElem c) : BitVec (c.digits * c.digitWidth) :=
  BitVec.ofNat _ (Rau.radixSum (2 ^ c.digitWidth) c.digits (fun i => (Rau.digit x i).val))

/-- The RAU's outputs (40_ring_unit.md R106). -/
structure RauOut (c : RauConfig) where
  r : BitVec c.width
  v : Bool
  dig : BitVec (c.digits * c.digitWidth)
  deriving DecidableEq, Repr

/-- The second operand as the operation sees it: an operation that ignores `y` is given 0 for it
(40_ring_unit.md R106, "ignored by SUCC, PRED, ROTR and VALID"; log 8). -/
def Rau.operandY (o : RauOp) (y : BitVec c.width) : Option (RingElem c) :=
  if Rau.usesY o then RingElem.ofBus? c y else some (RingElem.zero c)

/-- The combinational unit at its ports (40_ring_unit.md R106 to R108). `v` is isValid(x) for every op. VALID's `r` is
defined on every pattern (R96). Where R108 leaves `r` or `dig` unspecified it is a free value (log 8). -/
def Rau.ports (op : BitVec 3) (x y : BitVec c.width) : RauOut c :=
  match Rau.decodeOp op with
  | none => { r := Config.freeRauResult c op x y, v := Rau.isValid x, dig := Config.freeRauDigits c op x y }
  | some o =>
    match RingElem.ofBus? c x, Rau.operandY o y with
    | some ex, some ey => { r := Rau.result o ex ey, v := Rau.isValid x, dig := Rau.digitBus ex }
    | _, _ =>
      { r := if o = .valid then BitVec.ofNat c.width (Rau.isValid x).toNat else Config.freeRauResult c op x y,
        v := Rau.isValid x, dig := Config.freeRauDigits c op x y }

end Sys2Proof.Machine
end

