-- ==== Sys2Proof/Machine/State.lean ====
section
/-! DEFINITION. State: everything the spec gives the machine, as plain data (10_state.md R20, R34), the reasons a step
or a port can stop, and the machine right after reset (10_state.md R35). -/

namespace Sys2Proof.Machine

/-- A machine step never faults: the hardware has no traps, every fatal event is a write of STATUS and memory addresses
cannot be out of range (60_exceptions.md R200, R202; 20_memory.md R46). So this closed type has no constructor. -/
inductive Fault where
  deriving DecidableEq, Repr

/-- The refusals. None is raised by `step`; each but the first is a breach of the host's duty at a port. -/
inductive Refusal where
  /-- The host's name for an instruction without a meaning. No arm of `exec` raises it. Safe. -/
  | notModelled (mnemonic : String)
  /-- Raised by the load port for a value or an address above MAX: "a model refuses such a launch"
  (20_memory.md R61; 93_implementation_defined.md U8). Safe: the model says nothing of such a launch. -/
  | loadNotRingElement
  /-- Raised by the loader for an image longer than END words (20_memory.md R60). Safe, for the same reason. -/
  | imageTooLong
  /-- Raised at a clock edge for the answer in_kind = 3 (43_io.md R182; 93_implementation_defined.md U7). Safe: the
  model gives the host no such move. -/
  | inKindReserved
  deriving DecidableEq, Repr

/-- The status values of 10_state.md R30. CAUSE is a field of the two values that carry one, so it is 0 elsewhere by
construction (R32); TAG 6 and 7 have no constructor (93_implementation_defined.md U11). -/
inductive Status (cfg : Config) where
  | running
  | haltedByHaltCommand
  | haltedByEofWrite
  /-- Declared by the source and never entered by this hardware (60_exceptions.md R214). -/
  | noIoInfiniteLoop
  | writeError (cause : BitVec cfg.causeWidth)
  | readError (cause : BitVec cfg.causeWidth)
  deriving DecidableEq, Repr

/-- The micro-sequencer's states (41_execution_core.md R145). OUTWAIT and INWAIT are also the pending channel
transaction of 10_state.md R34 (c). -/
inductive Phase (cfg : Config) where
  /-- CLEAR, about to write 0 to the word `next` (70_reset_and_hazards.md R230). -/
  | clear (next : cfg.Elem)
  | idle
  | fetch
  /-- EXEC, its first or only cycle. -/
  | exec
  /-- EXEC's second cycle, the write-back of `>` and `|` (70_reset_and_hazards.md R237). -/
  | execWrite
  | outWait
  | inWait
  | advance
  deriving DecidableEq, Repr

/-- One memory as data: the words that differ from the reset contents, by address. The smallest addressable unit is the
word (20_memory.md R46, R48), so a cell is an address and a word, not a byte (log 1). -/
abbrev Memory (cfg : Config) := List (cfg.Elem × cfg.Elem)

/-- What an address that is not listed reads as: the reset contents, 0 in every word (10_state.md R33, R35). -/
def Memory.unlisted (cfg : Config) : cfg.Elem := RingElem.zero cfg.toRauConfig

/-- The canonical form: addresses strictly rising, and no entry equal to what an unlisted address reads as. -/
abbrev Memory.wf {cfg : Config} (m : Memory cfg) : Prop :=
  m.Pairwise (fun p q => p.1 < q.1) ∧ ∀ p ∈ m, p.2 ≠ Memory.unlisted cfg

/-- The MODEL'S OWN fields (log 5): what the two channels outside the block do. A sample is what a port shows at one
edge at which the CORE waits: `none` is silence, `some` an answer (43_io.md R182). -/
structure Channels where
  /-- The next samples of the input port that the host has lined up, first to come first. -/
  inSamples : List (Option InAnswer)
  /-- How many samples of the input port were taken: the index of the free value past the list. -/
  inTaken : Nat
  /-- The next samples of the output port that the host has lined up. -/
  outSamples : List (Option OutAnswer)
  /-- How many samples of the output port were taken. -/
  outTaken : Nat
  /-- The bytes the output channel answered Ok to, oldest first (43_io.md R182). -/
  written : List Byte
  deriving DecidableEq, Repr

/-- One block of a given configuration: the architectural state of 10_state.md R20 and the hidden state of R34. -/
structure Block (cfg : Config) where
  /-- A, the accumulator (10_state.md R22). -/
  a : cfg.Elem
  /-- C, the program counter (10_state.md R23). -/
  c : cfg.Elem
  /-- D, the data pointer (10_state.md R24). -/
  d : cfg.Elem
  /-- MEM (10_state.md R33). -/
  mem : Memory cfg
  /-- STATUS: TAG and CAUSE (10_state.md R29 to R32). -/
  status : Status cfg
  /-- LOADPHASE (10_state.md R34 (a)). -/
  loadPhase : Bool
  /-- The micro-sequencer (10_state.md R34 (b), (c)). -/
  phase : Phase cfg
  /-- IR, the latched instruction word (10_state.md R34 (b)). -/
  ir : cfg.Elem
  /-- MDR, the latched operand word (10_state.md R34 (b)). -/
  mdr : cfg.Elem
  /-- The model's own record of the two channels (log 5). -/
  chan : Channels
  deriving DecidableEq, Repr

/-- The machine: one instance's configuration, which no step changes (00_scope.md R5), and its block. -/
structure State where
  cfg : Config
  block : Block cfg
  deriving DecidableEq, Repr

/-- The channels with nothing lined up and nothing written. -/
def Channels.reset : Channels :=
  { inSamples := [], inTaken := 0, outSamples := [], outTaken := 0, written := [] }

/-- A block of any configuration after reset, once CLEAR is done and `busy` = 0 (10_state.md R35;
70_reset_and_hazards.md R230, R233). IR and MDR are 0 by DESIGN CHOICE (log 4). -/
def Block.reset (cfg : Config) : Block cfg :=
  { a := RingElem.zero cfg.toRauConfig, c := RingElem.zero cfg.toRauConfig, d := RingElem.zero cfg.toRauConfig,
    mem := [], status := .running, loadPhase := true, phase := .idle,
    ir := RingElem.zero cfg.toRauConfig, mdr := RingElem.zero cfg.toRauConfig, chan := Channels.reset }

/-- The machine of configuration `cfg` after reset. -/
def State.resetOf (cfg : Config) : State := ⟨cfg, Block.reset cfg⟩

/-- The machine right after reset, in the canonical configuration (00_scope.md R8; 10_state.md R35). -/
def State.reset : State := State.resetOf Config.canonical

end Sys2Proof.Machine
end

