-- ==== Sys2Proof/Machine/Ops.lean ====
section
/-! DEFINITION. Ops: the named operations on memory and on the registers of the block, the one write of a terminal
status (this hardware's whole exception mechanism, 60_exceptions.md R200) and the advance every step ends in
(41_execution_core.md R136). -/

namespace Sys2Proof.Machine

variable {cfg : Config}

/-- MemRead(a, 1): the word at ring element `a` (00_scope.md R11, 20_memory.md R46). No side effect (R52). -/
def Memory.read : Memory cfg → cfg.Elem → cfg.Elem
  | [], _ => Memory.unlisted cfg
  | (k, w) :: m, a => if k = a then w else Memory.read m a

/-- MemWrite(a, 1, v): put `v` at `a`, keeping the canonical form; the reset value removes the entry
(00_scope.md R11, 20_memory.md R48). -/
def Memory.write : Memory cfg → cfg.Elem → cfg.Elem → Memory cfg
  | [], a, v => if v = Memory.unlisted cfg then [] else [(a, v)]
  | (k, w) :: m, a, v =>
    if a < k then (if v = Memory.unlisted cfg then (k, w) :: m else (a, v) :: (k, w) :: m)
    else if a = k then (if v = Memory.unlisted cfg then m else (a, v) :: m)
    else (k, w) :: Memory.write m a v

/-- 0 in every word from `first` to MAX, the rest as it was: what the remaining CLEAR cycles do
(70_reset_and_hazards.md R230; the ascending order is log 7). -/
def Memory.clearFrom (m : Memory cfg) (first : cfg.Elem) : Memory cfg :=
  m.filter (fun p => decide (p.1 < first))

/-- `A <- v` (00_scope.md R11). -/
def Block.setA (b : Block cfg) (v : cfg.Elem) : Block cfg := { b with a := v }

/-- `C <- v`, which is `pc <- v` (00_scope.md R11). -/
def Block.setC (b : Block cfg) (v : cfg.Elem) : Block cfg := { b with c := v }

/-- `D <- v` (00_scope.md R11). -/
def Block.setD (b : Block cfg) (v : cfg.Elem) : Block cfg := { b with d := v }

/-- Replace MEM. -/
def Block.setMem (b : Block cfg) (m : Memory cfg) : Block cfg := { b with mem := m }

/-- `status <- st` (00_scope.md R11). -/
def Block.setStatus (b : Block cfg) (st : Status cfg) : Block cfg := { b with status := st }

/-- Set LOADPHASE (10_state.md R34 (a)). -/
def Block.setLoadPhase (b : Block cfg) (v : Bool) : Block cfg := { b with loadPhase := v }

/-- Move the micro-sequencer (41_execution_core.md R145). -/
def Block.setPhase (b : Block cfg) (p : Phase cfg) : Block cfg := { b with phase := p }

/-- Latch the instruction word (41_execution_core.md R145). -/
def Block.setIr (b : Block cfg) (v : cfg.Elem) : Block cfg := { b with ir := v }

/-- Latch the operand word (41_execution_core.md R145). -/
def Block.setMdr (b : Block cfg) (v : cfg.Elem) : Block cfg := { b with mdr := v }

/-- Replace the record of the channels (log 5). -/
def Block.setChan (b : Block cfg) (ch : Channels) : Block cfg := { b with chan := ch }

/-- Enter a terminal status: the whole of "taking an exception" here. Every fatal event is this one write; no program
counter is saved, no vector is taken and nothing else changes (60_exceptions.md R200, R204; 41_execution_core.md
R137, R140). -/
def Block.terminate (b : Block cfg) (st : Status cfg) : Block cfg := b.setStatus st

/-- The advance: if STATUS is still running, C and D each move on by `succ` from the values execute left; otherwise
neither moves (41_execution_core.md R136, R137). -/
def Block.advance (b : Block cfg) : Block cfg :=
  if b.status = .running then (b.setC (Rau.succ b.c)).setD (Rau.succ b.d) else b

/-- The end of a step: the advance, and the micro-sequencer back in IDLE (41_execution_core.md R145). -/
def Block.finish (b : Block cfg) : Block cfg := b.advance.setPhase .idle

/-- An accepted step request clears LOADPHASE (41_execution_core.md R143, 10_state.md R34 (a)). -/
def Block.accept (b : Block cfg) : Block cfg := b.setLoadPhase false

/-- Fetch: `IR <- MEM[C]`, the whole word, before any write of the step (41_execution_core.md R134, R145). -/
def Block.fetch (b : Block cfg) : Block cfg := b.setIr (b.mem.read b.c)

/-- The shared compute-and-store path of `>` and `|`: the one result goes to both A and MEM[D]
(40_ring_unit.md R110). -/
def Block.storeResult (b : Block cfg) (z : cfg.Elem) : Block cfg := (b.setA z).setMem (b.mem.write b.d z)

/-- Run an operation on the block of a machine; its configuration stays (00_scope.md R5). -/
def State.nextBlock (s : State) (f : Block s.cfg → Block s.cfg) : Host.Outcome State Fault Refusal :=
  .next ⟨s.cfg, f s.block⟩

/-- Put the word of value `w` where the next step fetches, and leave the block ready to fetch it: IDLE and running.
A value above MAX is no memory word (00_scope.md R9): nothing is placed. -/
def Block.placeFetchWord (b : Block cfg) (w : Nat) : Block cfg :=
  match RingElem.ofNat? cfg.toRauConfig w with
  | some v => ((b.setMem (b.mem.write b.c v)).setStatus .running).setPhase .idle
  | none => b

end Sys2Proof.Machine
end

