-- ==== Sys2Proof/Machine/Operands.lean ====
section
/-! DEFINITION. Operands: every operand is implicit (30_encoding.md R71). The one memory operand is MEM[D]
(20_memory.md R47 (b)); the output byte is made from A and the input byte becomes A (43_io.md R185, R186). -/

namespace Sys2Proof.Machine

variable {cfg : Config}

/-- The memory operand MEM[D] (20_memory.md R47 (b), 10_state.md R24). -/
def Block.operand (b : Block cfg) : cfg.Elem := b.mem.read b.d

/-- `MDR <- MEM[D]`, the operand read of `*`, `>`, `^` and `|` (41_execution_core.md R145). -/
def Block.readOperand (b : Block cfg) : Block cfg := b.setMdr b.operand

/-- OUT_BYTE(A) = A mod 256, the low eight bits of A (43_io.md R185, decision D5). -/
def outByte (x : cfg.Elem) : Byte := BitVec.ofNat 8 x.val

/-- The ring element of an input byte, zero-extended; below END in every CORE configuration (43_io.md R186,
00_scope.md R7). -/
def inByte (cfg : Config) (b : Byte) : cfg.Elem := ⟨b.toNat, cfg.byte_lt_modulus b.isLt⟩

end Sys2Proof.Machine
end

