-- ==== Sys2Proof/Machine/Arith.lean ====
section
/-! DEFINITION. Arith: ROT and SUB, the two instructions that compute in the RAU and store (42_instructions.md R162,
R165), through the one compute-and-store path of 40_ring_unit.md R110. Their operand read and their write-back are two
EXEC cycles (70_reset_and_hazards.md R237), so each is a definition of its own. -/

namespace Sys2Proof.Machine

variable {cfg : Config}

/-- The write-back of `>`: z = rotr(MDR), to A and MEM[D] (42_instructions.md R162). -/
def Block.rotWriteBack (b : Block cfg) : Block cfg := b.storeResult (Rau.rotr b.mdr)

/-- The write-back of `|`: z = dsub(A, MDR), A the minuend, to A and MEM[D] (42_instructions.md R165). -/
def Block.subWriteBack (b : Block cfg) : Block cfg := b.storeResult (Rau.dsub b.a b.mdr)

/-- `>` ROT (42_instructions.md R162): A' = MEM'[D] = rotr(MEM[D]). -/
def execRot (s : State) : Host.Outcome State Fault Refusal := s.nextBlock (fun b => b.readOperand.rotWriteBack.finish)

/-- `|` SUB (42_instructions.md R165): A' = MEM'[D] = dsub(A, MEM[D]). -/
def execSub (s : State) : Host.Outcome State Fault Refusal := s.nextBlock (fun b => b.readOperand.subWriteBack.finish)

end Sys2Proof.Machine
end

