-- ==== Sys2Proof/Machine/Control.lean ====
section
/-! DEFINITION. Control: HALT, JMP and NOP, and the unmapped word (42_instructions.md R160, R163, R164, R166). Each
meaning is execute and then the advance of 41_execution_core.md R136. -/

namespace Sys2Proof.Machine

variable {cfg : Config}

/-- The execute phase of `!`: `status <- haltedByHaltCommand` (42_instructions.md R160). -/
def Block.haltWork (b : Block cfg) : Block cfg := b.terminate .haltedByHaltCommand

/-- The execute phase of `^`: `C <- MEM[D]` (42_instructions.md R163). -/
def Block.jmpWork (b : Block cfg) : Block cfg := b.readOperand.setC b.readOperand.mdr

/-- The execute phase of `_` and of an unmapped word: nothing (42_instructions.md R164, R166). -/
def Block.noWork (b : Block cfg) : Block cfg := b

/-- `!` HALT (42_instructions.md R160): no advance, because the status is no longer running. -/
def execHalt (s : State) : Host.Outcome State Fault Refusal := s.nextBlock (fun b => b.haltWork.finish)

/-- `^` JMP (42_instructions.md R163): C' = succ(MEM[D]), D' = succ(D). -/
def execJmp (s : State) : Host.Outcome State Fault Refusal := s.nextBlock (fun b => b.jmpWork.finish)

/-- `_` NOP (42_instructions.md R164): only the advance. -/
def execNop (s : State) : Host.Outcome State Fault Refusal := s.nextBlock (fun b => b.noWork.finish)

/-- An unmapped word (42_instructions.md R166): the same as `_`. -/
def execUnmapped (s : State) : Host.Outcome State Fault Refusal := s.nextBlock (fun b => b.noWork.finish)

end Sys2Proof.Machine
end

