-- ==== Sys2Proof/Machine/Flags.lean ====
section
/-! DEFINITION. Flags: the hardware has no condition flags (10_state.md R27). What stands here is the one condition it
computes, A = MAX, which is stored nowhere, and the STATUS register as bits (10_state.md R29, R30). -/

namespace Sys2Proof.Machine

variable {cfg : Config}

/-- The comparison A = MAX made inside OUT (10_state.md R27, 43_io.md R183). -/
def Block.aIsMax (b : Block cfg) : Bool := decide (b.a = RingElem.max cfg.toRauConfig)

/-- Is STATUS `running`? (10_state.md R30; 41_execution_core.md R142, port `running`.) -/
def Status.isRunning (st : Status cfg) : Bool := decide (st = .running)

/-- STATUS.TAG (10_state.md R30). -/
def Status.tag : Status cfg → BitVec 3
  | .running => 0#3
  | .haltedByHaltCommand => 1#3
  | .haltedByEofWrite => 2#3
  | .noIoInfiniteLoop => 3#3
  | .writeError _ => 4#3
  | .readError _ => 5#3

/-- STATUS.CAUSE, 0 but in the two error values (10_state.md R32). -/
def Status.cause : Status cfg → BitVec cfg.causeWidth
  | .running => 0#_
  | .haltedByHaltCommand => 0#_
  | .haltedByEofWrite => 0#_
  | .noIoInfiniteLoop => 0#_
  | .writeError k => k
  | .readError k => k

/-- STATUS as one register: CAUSE in bits [CAUSE_W+7:8], bits [7:3] zero, TAG in bits [2:0] (10_state.md R29). -/
def Status.word (st : Status cfg) : BitVec (cfg.causeWidth + 8) := st.cause ++ ((0#5 ++ st.tag : BitVec 8))

/-- A channel's opaque cause as STATUS keeps it: truncated or zero-extended to CAUSE_W bits (10_state.md R32). -/
def causeOf (cfg : Config) (k : Nat) : BitVec cfg.causeWidth := BitVec.ofNat cfg.causeWidth k

end Sys2Proof.Machine
end

