-- ==== Sys2Proof/Machine/Io.lean ====
section
/-! DEFINITION. Io: the two byte channels as the CORE meets them (43_io.md R180 to R182, R189) and the instructions OUT
and IN (R183, R184). An answer is a draw from the host (R189, 41_execution_core.md R133): what the host has lined up in
the state, and past that a free value (log 5). -/

namespace Sys2Proof.Machine

variable {cfg : Config}

/-- What the input port shows when it is sampled now: silence, or an answer (43_io.md R180, R182). -/
def Channels.inSample (ch : Channels) : Option InAnswer :=
  match ch.inSamples with
  | smp :: _ => smp
  | [] => Config.freeInSample ch.inTaken

/-- What the output port shows when it is sampled now (43_io.md R181, R182). -/
def Channels.outSample (ch : Channels) : Option OutAnswer :=
  match ch.outSamples with
  | smp :: _ => smp
  | [] => Config.freeOutSample ch.outTaken

/-- One sample of the input port is gone (log 5). -/
def Channels.takeIn (ch : Channels) : Channels := { ch with inSamples := ch.inSamples.tail, inTaken := ch.inTaken + 1 }

/-- One sample of the output port is gone (log 5). -/
def Channels.takeOut (ch : Channels) : Channels :=
  { ch with outSamples := ch.outSamples.tail, outTaken := ch.outTaken + 1 }

/-- The channel has taken the byte: an Ok answer means it was written exactly once (43_io.md R182). -/
def Channels.wrote (ch : Channels) (x : Byte) : Channels := { ch with written := ch.written ++ [x] }

/-- Sampling the input port. -/
def Block.takeIn (b : Block cfg) : Block cfg := b.setChan b.chan.takeIn

/-- Sampling the output port. -/
def Block.takeOut (b : Block cfg) : Block cfg := b.setChan b.chan.takeOut

/-- What `OutWrite` answering `ans` does: nothing more on Ok (the byte is written), writeError(k) on Failure(k)
(43_io.md R183). A never changes. -/
def Block.outAnswered (b : Block cfg) (ans : OutAnswer) : Block cfg :=
  match ans with
  | .ok => b.setChan (b.chan.wrote (outByte b.a))
  | .failure k => b.terminate (.writeError (causeOf cfg k))

/-- What `InRead` answering `ans` does: A is the byte, or MAX at end of stream and on a failure, which also enters
readError(k) (43_io.md R184). -/
def Block.inAnswered (b : Block cfg) (ans : InAnswer) : Block cfg :=
  match ans with
  | .byte x => b.setA (inByte cfg x)
  | .endOfStream => b.setA (RingElem.max cfg.toRauConfig)
  | .failure k => (b.terminate (.readError (causeOf cfg k))).setA (RingElem.max cfg.toRauConfig)

/-- The blocking output transaction at a sampled edge: a silent channel leaves the CORE in OUTWAIT with STATUS running
(43_io.md R182, R189; U6), an answer ends the step. -/
def Block.awaitOut (b : Block cfg) : Block cfg :=
  match b.chan.outSample with
  | none => b.takeOut.setPhase .outWait
  | some ans => (b.takeOut.outAnswered ans).finish

/-- The blocking input transaction at a sampled edge, the same way (43_io.md R182, R184, R189; U6). -/
def Block.awaitIn (b : Block cfg) : Block cfg :=
  match b.chan.inSample with
  | none => b.takeIn.setPhase .inWait
  | some ans => (b.takeIn.inAnswered ans).finish

/-- OUT when A = MAX: haltedByEofWrite, and no channel transaction (43_io.md R183). -/
def Block.outEofWork (b : Block cfg) : Block cfg := b.terminate .haltedByEofWrite

/-- OUT, write byte (43_io.md R183): A = MAX is tested first. -/
def execOut (s : State) : Host.Outcome State Fault Refusal :=
  s.nextBlock (fun b => if b.aIsMax then b.outEofWork.finish else b.awaitOut)

/-- IN, read byte (43_io.md R184). -/
def execIn (s : State) : Host.Outcome State Fault Refusal := s.nextBlock (fun b => b.awaitIn)

end Sys2Proof.Machine
end

