-- ==== Sys2Proof/Machine/Pointer.lean ====
section
/-! DEFINITION. Pointer: LDD, the only instruction that writes D during execute (42_instructions.md R161, 10_state.md
R24). -/

namespace Sys2Proof.Machine

variable {cfg : Config}

/-- The execute phase of `*`: `D <- MEM[D]` (42_instructions.md R161). -/
def Block.lddWork (b : Block cfg) : Block cfg := b.readOperand.setD b.readOperand.mdr

/-- `*` LDD (42_instructions.md R161): C' = succ(C), D' = succ(MEM[D]). -/
def execLdd (s : State) : Host.Outcome State Fault Refusal := s.nextBlock (fun b => b.lddWork.finish)

end Sys2Proof.Machine
end

