-- ==== Sys2Proof/Machine/Dispatch.lean ====
section
/-! DEFINITION. Dispatch: one arm for each instruction (41_execution_core.md R132). -/

namespace Sys2Proof.Machine

def exec (i : Instr) (s : State) : Host.Outcome State Fault Refusal :=
  match i with
  | .halt => Sys2Proof.Machine.execHalt s
  | .ldd => Sys2Proof.Machine.execLdd s
  | .rot => Sys2Proof.Machine.execRot s
  | .jmp => Sys2Proof.Machine.execJmp s
  | .nop => Sys2Proof.Machine.execNop s
  | .out => Sys2Proof.Machine.execOut s
  | .sub => Sys2Proof.Machine.execSub s
  | .inp => Sys2Proof.Machine.execIn s

end Sys2Proof.Machine
end

