-- ==== Sys2Proof/Machine/Sequencer.lean ====
section
/-! DEFINITION. Sequencer: one step of the CORE as its driver sees it (41_execution_core.md R130 to R132, R139, R143 to
R145): a step request carried through to the machine's next resting point, which is IDLE, or a wait on a channel that is
silent when sampled. `step` calls what stands here. -/

namespace Sys2Proof.Machine

variable {cfg : Config}

/-- Decode and execute the latched word (41_execution_core.md R132, R135): one of the eight meanings, or the no-op of an
unmapped word. -/
def State.runLatched (s : State) : Host.Outcome State Fault Refusal :=
  match decode s.block.ir.val with
  | .instr i => exec i s
  | .unmapped => execUnmapped s

/-- Fetch, then decode and execute (41_execution_core.md R132, R134). -/
def State.runFetched (s : State) : Host.Outcome State Fault Refusal := State.runLatched ⟨s.cfg, s.block.fetch⟩

/-- The second EXEC cycle of `>` or `|`, by the latched word (70_reset_and_hazards.md R237). No other instruction has
one. -/
def Block.writeBack (b : Block cfg) : Block cfg :=
  match decode b.ir.val with
  | .instr .rot => b.rotWriteBack
  | .instr .sub => b.subWriteBack
  | _ => b

/-- What is left of CLEAR: 0 in every word not yet visited, then IDLE (70_reset_and_hazards.md R230). -/
def Block.clearRest (b : Block cfg) (next : cfg.Elem) : Block cfg := (b.setMem (b.mem.clearFrom next)).setPhase .idle

/-- Carry the machine to its next resting point. In IDLE the request is accepted (41_execution_core.md R143): a running
machine performs one step, a terminal one only acknowledges (R131, R144). A machine found busy does not accept a new
request (R143); it completes the work it is in the middle of. -/
def State.request (s : State) : Host.Outcome State Fault Refusal :=
  match s.block.phase with
  | .idle =>
    if s.block.status = .running then State.runFetched ⟨s.cfg, s.block.accept⟩ else s.nextBlock Block.accept
  | .fetch => s.runFetched
  | .exec => s.runLatched
  | .execWrite => s.nextBlock (fun b => b.writeBack.finish)
  | .outWait => s.nextBlock Block.awaitOut
  | .inWait => s.nextBlock Block.awaitIn
  | .advance => s.nextBlock Block.finish
  | .clear next => s.nextBlock (fun b => b.clearRest next)

end Sys2Proof.Machine
end

