-- ==== Sys2Proof/Machine/Step.lean ====
section
/-! DEFINITION. Step: the one step of the machine, and where the host places the instruction it runs next. -/

namespace Sys2Proof.Machine

/-- One step request, carried to the machine's next resting point (41_execution_core.md R130 to R132, R143). -/
def step : State → Host.Outcome State Fault Refusal := State.request

/-- The machine with the word of `nbits` bits `w` stored at C, where `step` fetches, and ready to fetch it: IDLE and
running. This stands for a load before the first step (70_reset_and_hazards.md R233; log 6). -/
def State.withFetchWord (s : State) (nbits w : Nat) : State := ⟨s.cfg, s.block.placeFetchWord (w % 2 ^ nbits)⟩

end Sys2Proof.Machine
end

