-- ==== Sys2Proof/Machine/Load.lean ====
section
/-! DEFINITION. Load: the load port and the loader (20_memory.md R60, R61; 70_reset_and_hazards.md R233; conflicts C4,
C6). -/

namespace Sys2Proof.Machine

variable {cfg : Config}

/-- May the load port write now? Only in the load phase, with the micro-sequencer in IDLE (20_memory.md R60). -/
def Block.loadOpen (b : Block cfg) : Bool := b.loadPhase && decide (b.phase = .idle)

/-- What `ld_sel` selects: 0 a MEM word, 1 A, 2 C, 3 D (20_memory.md R60). -/
inductive LoadTarget (cfg : Config) where
  | word (addr : cfg.Elem)
  | regA
  | regC
  | regD
  deriving DecidableEq, Repr

/-- The selected target takes the data (20_memory.md R60). -/
def Block.loadTo (b : Block cfg) (t : LoadTarget cfg) (v : cfg.Elem) : Block cfg :=
  match t with
  | .word addr => b.setMem (b.mem.write addr v)
  | .regA => b.setA v
  | .regC => b.setC v
  | .regD => b.setD v

/-- The target that `ld_sel` names, a MEM word at the address given (20_memory.md R60). -/
def loadTarget {cfg : Config} (sel : BitVec 2) (addr : cfg.Elem) : LoadTarget cfg :=
  if sel = 1#2 then .regA
  else if sel = 2#2 then .regC
  else if sel = 3#2 then .regD
  else .word addr

/-- One cycle of the load port with `ld_we` = 1: the write where the port is open, nothing where it is not (R60), and a
refusal where the host breaks its duty, which is `ld_data` ≤ MAX and `ld_addr` ≤ MAX whatever `ld_sel` is (R61;
93_implementation_defined.md U8). -/
def Block.loadCycle (b : Block cfg) (sel : BitVec 2) (addr data : BitVec cfg.width) :
    Host.Outcome (Block cfg) Fault Refusal :=
  if b.loadOpen then
    match RingElem.ofBus? cfg.toRauConfig addr, RingElem.ofBus? cfg.toRauConfig data with
    | some e, some v => .next (b.loadTo (loadTarget sel e) v)
    | _, _ => .refused .loadNotRingElement
  else .next b

/-- Write consecutive words from address `addr` on, as far as both are ring elements. -/
def Memory.writeFrom (m : Memory cfg) (addr : Nat) : List Nat → Memory cfg
  | [] => m
  | w :: ws =>
    match RingElem.ofNat? cfg.toRauConfig addr, RingElem.ofNat? cfg.toRauConfig w with
    | some a, some v => Memory.writeFrom (m.write a v) (addr + 1) ws
    | _, _ => m

/-- The loader: an image of at most END ring elements from address 0; the words past it keep their value, 0 after reset
(20_memory.md R60, conflict C6). Outside the load phase the port is ignored. -/
def State.loadImage (s : State) (image : List Nat) : Host.Outcome State Fault Refusal :=
  if s.block.loadOpen then
    if s.cfg.imageWellFormed image then s.nextBlock (fun b => b.setMem (b.mem.writeFrom 0 image))
    else if s.cfg.toRauConfig.modulus < image.length then .refused .imageTooLong
    else .refused .loadNotRingElement
  else .next s

end Sys2Proof.Machine
end

