-- ==== Sys2Proof/Machine/Clock.lean ====
section
/-! DEFINITION. Clock: the block at its pins, one rising clock edge at a time: reset, the step handshake, the load port,
the channel handshakes, the status and debug outputs, and the micro-sequence with its cycle counts (41_execution_core.md
R142 to R145; 70_reset_and_hazards.md R230, R237; 20_memory.md R60, R62; 43_io.md R180 to R182). The architecture does
not depend on it (R145): `step` is the whole step, and what stands here is the same step in clock cycles. -/

namespace Sys2Proof.Machine

variable {cfg : Config}

/-- The input pins at one rising edge. -/
structure PinsIn (cfg : Config) where
  rst : Bool
  stepReq : Bool
  ldWe : Bool
  ldSel : BitVec 2
  ldAddr : BitVec cfg.width
  ldData : BitVec cfg.width
  inValid : Bool
  inKind : BitVec 2
  inData : Byte
  inCause : BitVec cfg.causeWidth
  outValid : Bool
  outFail : Bool
  outCause : BitVec cfg.causeWidth
  deriving DecidableEq, Repr

/-- All input pins low. -/
def PinsIn.low (cfg : Config) : PinsIn cfg :=
  { rst := false, stepReq := false, ldWe := false, ldSel := 0#2, ldAddr := 0#_, ldData := 0#_, inValid := false,
    inKind := 0#2, inData := 0#8, inCause := 0#_, outValid := false, outFail := false, outCause := 0#_ }

/-- What the input channel answers where `in_valid` = 1: in_kind 0, 1, 2; in_kind = 3 is no answer
(43_io.md R180; 93_implementation_defined.md U7). -/
def PinsIn.inAnswer? (p : PinsIn cfg) : Option InAnswer :=
  if p.inKind = 0#2 then some (.byte p.inData)
  else if p.inKind = 1#2 then some .endOfStream
  else if p.inKind = 2#2 then some (.failure p.inCause.toNat)
  else none

/-- What the output channel answers where `out_valid` = 1 (43_io.md R181). -/
def PinsIn.outAnswer (p : PinsIn cfg) : OutAnswer := if p.outFail then .failure p.outCause.toNat else .ok

/-- The edge with `rst` = 1: construction, with the memory still to be cleared (70_reset_and_hazards.md R230). IR, MDR and
the outside world's record keep their values (log 4, log 5). -/
def Block.resetEdge (b : Block cfg) : Block cfg :=
  let zero := RingElem.zero cfg.toRauConfig
  (((((b.setA zero).setC zero).setD zero).setStatus .running).setLoadPhase true).setPhase (.clear zero)

/-- One CLEAR cycle: 0 to the word `next`; after the last word the sequencer enters IDLE (R230, R237). -/
def Block.clearEdge (b : Block cfg) (next : cfg.Elem) : Block cfg :=
  (b.setMem (b.mem.write next (RingElem.zero cfg.toRauConfig))).setPhase
    (if next = RingElem.max cfg.toRauConfig then .idle else .clear (Rau.succ next))

/-- The edge at which a step request is accepted: LOADPHASE is cleared, and the sequencer goes to FETCH, or straight to
ADVANCE in a terminal status (41_execution_core.md R143 to R145). -/
def Block.acceptEdge (b : Block cfg) : Block cfg :=
  b.accept.setPhase (if b.status = .running then .fetch else .advance)

/-- The first or only EXEC cycle of each instruction, and the state it goes to (41_execution_core.md R145;
70_reset_and_hazards.md R237). -/
def Block.execEdge (b : Block cfg) : Block cfg :=
  match decode b.ir.val with
  | .instr .halt => b.haltWork.setPhase .advance
  | .instr .ldd => b.lddWork.setPhase .advance
  | .instr .rot => b.readOperand.setPhase .execWrite
  | .instr .jmp => b.jmpWork.setPhase .advance
  | .instr .nop => b.noWork.setPhase .advance
  | .instr .out => if b.aIsMax then b.outEofWork.setPhase .advance else b.setPhase .outWait
  | .instr .sub => b.readOperand.setPhase .execWrite
  | .instr .inp => b.setPhase .inWait
  | .unmapped => b.noWork.setPhase .advance

/-- One edge in OUTWAIT: the answer, or one more cycle of waiting (43_io.md R182). -/
def Block.outWaitEdge (b : Block cfg) (p : PinsIn cfg) : Block cfg :=
  if p.outValid then (b.outAnswered p.outAnswer).setPhase .advance else b

/-- One edge in INWAIT (43_io.md R182); in_kind = 3 breaks the host's duty (93_implementation_defined.md U7). -/
def Block.inWaitEdge (b : Block cfg) (p : PinsIn cfg) : Host.Outcome (Block cfg) Fault Refusal :=
  if p.inValid then
    match p.inAnswer? with
    | some ans => .next ((b.inAnswered ans).setPhase .advance)
    | none => .refused .inKindReserved
  else .next b

/-- The load port's part of an edge in IDLE, nothing where `ld_we` = 0 (20_memory.md R60). -/
def Block.loadEdge (b : Block cfg) (p : PinsIn cfg) : Host.Outcome (Block cfg) Fault Refusal :=
  if p.ldWe then b.loadCycle p.ldSel p.ldAddr p.ldData else .next b

/-- An edge in IDLE: the load port, then the step request where there is one; both can fall on one edge (log 10). -/
def Block.idleEdge (b : Block cfg) (p : PinsIn cfg) : Host.Outcome (Block cfg) Fault Refusal :=
  match b.loadEdge p with
  | .next b' => .next (if p.stepReq then b'.acceptEdge else b')
  | .fault r => .fault r
  | .refused r => .refused r

/-- One rising clock edge (41_execution_core.md R142 to R145). -/
def Block.edge (b : Block cfg) (p : PinsIn cfg) : Host.Outcome (Block cfg) Fault Refusal :=
  if p.rst then .next b.resetEdge
  else
    match b.phase with
    | .clear next => .next (b.clearEdge next)
    | .idle => b.idleEdge p
    | .fetch => .next (b.fetch.setPhase .exec)
    | .exec => .next b.execEdge
    | .execWrite => .next (b.writeBack.setPhase .advance)
    | .outWait => .next (b.outWaitEdge p)
    | .inWait => b.inWaitEdge p
    | .advance => .next b.finish

/-- The debug port's outputs (20_memory.md R62). -/
structure DebugOut (cfg : Config) where
  mem : BitVec cfg.width
  a : BitVec cfg.width
  c : BitVec cfg.width
  d : BitVec cfg.width
  status : BitVec (cfg.causeWidth + 8)
  deriving DecidableEq, Repr, Inhabited

/-- FREE VALUE (log 9). The debug outputs while a step is in progress, "unspecified" by 20_memory.md R62 (U10), and
`dbg_mem` for an address above MAX, of which the spec says nothing. -/
opaque freeDebug {cfg : Config} (b : Block cfg) (addr : BitVec cfg.width) : DebugOut cfg

/-- The debug port: in IDLE it shows MEM[dbg_addr], A, C, D and STATUS; it changes nothing (20_memory.md R62). -/
def Block.debug (b : Block cfg) (addr : BitVec cfg.width) : DebugOut cfg :=
  if b.phase = .idle then
    { mem := match RingElem.ofBus? cfg.toRauConfig addr with
        | some a => (b.mem.read a).toBus
        | none => (freeDebug b addr).mem,
      a := b.a.toBus, c := b.c.toBus, d := b.d.toBus, status := b.status.word }
  else freeDebug b addr

/-- The output pins (41_execution_core.md R142; 43_io.md R180, R181). -/
structure PinsOut (cfg : Config) where
  stepAck : Bool
  busy : Bool
  statusTag : BitVec 3
  statusCause : BitVec cfg.causeWidth
  running : Bool
  inReq : Bool
  outReq : Bool
  outData : Byte
  deriving DecidableEq, Repr

/-- FREE VALUE (log 9). `out_data` while `out_req` = 0, of which 43_io.md R181 says nothing. -/
opaque freeOutData {cfg : Config} (b : Block cfg) : Byte

/-- The output pins as they stand between two edges: `step_ack` in ADVANCE, `busy` outside IDLE, the channel requests in
their wait states, and the offered byte, stable while it is offered (41_execution_core.md R142, R143, R145; 43_io.md
R180, R181). -/
def Block.pins (b : Block cfg) : PinsOut cfg :=
  { stepAck := decide (b.phase = .advance), busy := decide (b.phase ≠ .idle), statusTag := b.status.tag,
    statusCause := b.status.cause, running := b.status.isRunning, inReq := decide (b.phase = .inWait),
    outReq := decide (b.phase = .outWait),
    outData := if b.phase = .outWait then outByte b.a else freeOutData b }

/-- The pins that show a sample of the input port (43_io.md R180). -/
def PinsIn.withIn (p : PinsIn cfg) : Option InAnswer → PinsIn cfg
  | none => { p with inValid := false }
  | some (.byte x) => { p with inValid := true, inKind := 0#2, inData := x }
  | some .endOfStream => { p with inValid := true, inKind := 1#2 }
  | some (.failure k) => { p with inValid := true, inKind := 2#2, inCause := causeOf cfg k }

/-- The pins that show a sample of the output port (43_io.md R181). -/
def PinsIn.withOut (p : PinsIn cfg) : Option OutAnswer → PinsIn cfg
  | none => { p with outValid := false }
  | some .ok => { p with outValid := true, outFail := false }
  | some (.failure k) => { p with outValid := true, outFail := true, outCause := causeOf cfg k }

/-- The pins as the outside world of the state drives them under a free-running driver, which holds `step_req` at 1
(41_execution_core.md R143): no reset, no load, and each channel's next sample (log 5). -/
def Block.worldPins (b : Block cfg) : PinsIn cfg :=
  (({ PinsIn.low cfg with stepReq := true }).withIn b.chan.inSample).withOut b.chan.outSample

/-- A sample is used up at an edge at which the CORE waits on that channel (43_io.md R182; log 5). -/
def Block.sampled (b : Block cfg) : Block cfg :=
  match b.phase with
  | .inWait => b.takeIn
  | .outWait => b.takeOut
  | _ => b

/-- One clock edge with the pins driven by the world of the state. -/
def Block.tick (b : Block cfg) : Host.Outcome (Block cfg) Fault Refusal := b.sampled.edge b.worldPins

/-- `n` clock edges under that world. -/
def Block.ticks : Nat → Block cfg → Host.Outcome (Block cfg) Fault Refusal
  | 0, b => .next b
  | n + 1, b =>
    match b.tick with
    | .next b' => Block.ticks n b'
    | .fault r => .fault r
    | .refused r => .refused r

/-- `n` clock edges with every input pin low: no request, no load, no answer. -/
def Block.lowEdges : Nat → Block cfg → Host.Outcome (Block cfg) Fault Refusal
  | 0, b => .next b
  | n + 1, b =>
    match b.edge (PinsIn.low cfg) with
    | .next b' => Block.lowEdges n b'
    | .fault r => .fault r
    | .refused r => .refused r

end Sys2Proof.Machine
end

