-- ==== Sys2Proof/Safety.lean ====
section
/-! DEFINITION. Safety: what counts as a legal state of the block, and the words claims use: ready to step, and at
rest. -/

namespace Sys2Proof.Machine

variable {cfg : Config}

/-- Ready for a step: the micro-sequencer is IDLE and STATUS is running, so the next request performs the four phases of
41_execution_core.md R132. -/
abbrev Block.Ready (b : Block cfg) : Prop := b.phase = .idle ∧ b.status = .running

/-- The word C addresses has this opcode. -/
abbrev Block.FetchIs (b : Block cfg) (i : Instr) : Prop := (b.mem.read b.c).val = encode i

/-- What a terminal status records (60_exceptions.md R201): C still addresses the instruction that terminated, whose
word is still in memory, and A is what that event leaves; noIoInfiniteLoop is never entered (R214). -/
def Block.StatusRecord (b : Block cfg) : Prop :=
  match b.status with
  | .running => True
  | .haltedByHaltCommand => b.FetchIs .halt
  | .haltedByEofWrite => b.FetchIs .out ∧ b.a = RingElem.max cfg.toRauConfig
  | .noIoInfiniteLoop => False
  | .writeError _ => b.FetchIs .out ∧ b.a ≠ RingElem.max cfg.toRauConfig
  | .readError _ => b.FetchIs .inp ∧ b.a = RingElem.max cfg.toRauConfig

/-- What each micro-state implies (41_execution_core.md R145): STATUS is running in all but IDLE and ADVANCE, IR is the
word at C once it is latched, MDR is the word at D in the write-back, and a wait belongs to its instruction. -/
def Block.PhaseRecord (b : Block cfg) : Prop :=
  match b.phase with
  | .clear _ => b.status = .running ∧ b.loadPhase = true
  | .idle => True
  | .fetch => b.status = .running
  | .exec => b.status = .running ∧ b.ir = b.mem.read b.c
  | .execWrite => b.status = .running ∧ b.ir = b.mem.read b.c ∧ b.mdr = b.mem.read b.d ∧
      (b.FetchIs .rot ∨ b.FetchIs .sub)
  | .outWait => b.status = .running ∧ b.FetchIs .out ∧ b.a ≠ RingElem.max cfg.toRauConfig
  | .inWait => b.status = .running ∧ b.FetchIs .inp
  | .advance => True

/-- LOADPHASE is 1 only before the first accepted request: STATUS is running and the sequencer is in CLEAR or IDLE
(10_state.md R34 (a); 41_execution_core.md R143). -/
def Block.LoadPhaseRecord (b : Block cfg) : Prop :=
  b.loadPhase = true → b.status = .running ∧
    (match b.phase with
      | .clear _ => True
      | .idle => True
      | _ => False)

/-- A legal block: memory in its canonical form, and the three records above. Registers and memory words are ring
elements by their types (10_state.md R26). -/
structure Block.Legal (b : Block cfg) : Prop where
  mem : b.mem.wf
  status : b.StatusRecord
  phase : b.PhaseRecord
  load : b.LoadPhaseRecord

/-- At rest: where `step` leaves the machine, in IDLE or waiting on a channel (41_execution_core.md R139). -/
def Block.AtRest (b : Block cfg) : Prop := b.phase = .idle ∨ b.phase = .outWait ∨ b.phase = .inWait

/-- Everything a program or its driver can tell of a block: the architectural state of 10_state.md R20 and the world
outside. The hidden state is left out: LOADPHASE, the micro-sequencer, IR and MDR (10_state.md R34). -/
abbrev Block.SameVisible (b b' : Block cfg) : Prop :=
  b.a = b'.a ∧ b.c = b'.c ∧ b.d = b'.d ∧ b.mem = b'.mem ∧ b.status = b'.status ∧ b.chan = b'.chan

end Sys2Proof.Machine
end

