-- ==== Sys2Proof/Certificates/Slice0/Obligations.lean ====
section
/-! DEFINITION. Obligations: what is claimed of the model, each a rule of spec/ or an inference from its sections, over
every configuration (00_scope.md R5) unless it names the canonical one. Fields of a next state are written out as the
rules give them, not through the model's own operations. -/

open Sys2Proof Sys2Proof.Machine

/-! ## Encoding -/

/-- 30_encoding.md R73, whole: only an exact match of the whole word selects an instruction, every other word is
unmapped, and every value from 256 on is. Decoding an encoded instruction gives it back, and no other word does. -/
def Obligations.DecodeMatchesExactlyTheEncodedWord : Prop :=
  (∀ (w : Nat) (i : Instr), decode w = .instr i ↔ w = encode i) ∧
  (∀ w : Nat, decode w = .unmapped ↔ ∀ i : Instr, w ≠ encode i) ∧
  (∀ w : Nat, 256 ≤ w → decode w = .unmapped) ∧
  ∀ (cfg : Config) (x : cfg.Elem) (i : Instr), decode x.val = .instr i ↔ x = encodeWord cfg i

/-- 30_encoding.md R72: the eight words, written out bit by bit from the opcode map, and the two unmapped words the spec
names (95_test_vectors.md V18, V19). A sanity statement. -/
def Obligations.OpcodeMapWordsDecode : Prop :=
  decode 0b0000000000100001 = .instr .halt ∧ decode 0b0000000000101010 = .instr .ldd ∧
  decode 0b0000000000111110 = .instr .rot ∧ decode 0b0000000001011110 = .instr .jmp ∧
  decode 0b0000000001011111 = .instr .nop ∧ decode 0b0000000001111011 = .instr .out ∧
  decode 0b0000000001111100 = .instr .sub ∧ decode 0b0000000001111101 = .instr .inp ∧
  decode 289 = .unmapped ∧ decode 39386 = .unmapped

/-! ## What each instruction does -/

/-- 42_instructions.md R160: STATUS becomes haltedByHaltCommand, nothing advances, nothing else changes. -/
def Obligations.HaltStopsWithoutAdvance : Prop :=
  encode .halt = 33 ∧ ∀ (cfg : Config) (b : Block cfg), b.status = .running →
    Sys2Proof.Machine.exec .halt ⟨cfg, b⟩ = .next ⟨cfg, { b with status := .haltedByHaltCommand, phase := .idle }⟩

/-- 42_instructions.md R161: D' = succ(MEM[D]) and C' = succ(C); A and MEM are unchanged; where MEM[D] = MAX, D' = 0.
MDR holds the operand (41_execution_core.md R145). -/
def Obligations.LddLoadsDThroughItself : Prop :=
  encode .ldd = 42 ∧ ∀ (cfg : Config) (b : Block cfg), b.status = .running →
    Sys2Proof.Machine.exec .ldd ⟨cfg, b⟩ =
      .next ⟨cfg, { b with c := Rau.succ b.c, d := Rau.succ (b.mem.read b.d), mdr := b.mem.read b.d, phase := .idle }⟩ ∧
    (b.mem.read b.d = RingElem.max cfg.toRauConfig → Rau.succ (b.mem.read b.d) = RingElem.zero cfg.toRauConfig)

/-- 42_instructions.md R162: A' = MEM'[D] = rotr(MEM[D]), C' = succ(C), D' = succ(D); the old A is not read; a word with
rotr(x) = x is still copied to A. -/
def Obligations.RotRotatesTheWordAtD : Prop :=
  encode .rot = 62 ∧ ∀ (cfg : Config) (b : Block cfg), b.status = .running →
    Sys2Proof.Machine.exec .rot ⟨cfg, b⟩ =
      .next ⟨cfg, { b with
        a := Rau.rotr (b.mem.read b.d), mem := b.mem.write b.d (Rau.rotr (b.mem.read b.d)),
        c := Rau.succ b.c, d := Rau.succ b.d, mdr := b.mem.read b.d, phase := .idle }⟩

/-- 42_instructions.md R163: C' = succ(MEM[D]) and D' = succ(D); A and MEM are unchanged; where MEM[D] = MAX, C' = 0. -/
def Obligations.JmpLandsOnePastTheStoredWord : Prop :=
  encode .jmp = 94 ∧ ∀ (cfg : Config) (b : Block cfg), b.status = .running →
    Sys2Proof.Machine.exec .jmp ⟨cfg, b⟩ =
      .next ⟨cfg, { b with c := Rau.succ (b.mem.read b.d), d := Rau.succ b.d, mdr := b.mem.read b.d, phase := .idle }⟩ ∧
    (b.mem.read b.d = RingElem.max cfg.toRauConfig → Rau.succ (b.mem.read b.d) = RingElem.zero cfg.toRauConfig)

/-- 42_instructions.md R164: only C and D advance, and each wraps from MAX to 0. -/
def Obligations.NopOnlyAdvances : Prop :=
  encode .nop = 95 ∧ ∀ (cfg : Config) (b : Block cfg), b.status = .running →
    Sys2Proof.Machine.exec .nop ⟨cfg, b⟩ =
      .next ⟨cfg, { b with c := Rau.succ b.c, d := Rau.succ b.d, phase := .idle }⟩ ∧
    (b.c = RingElem.max cfg.toRauConfig → Rau.succ b.c = RingElem.zero cfg.toRauConfig)

/-- 42_instructions.md R165: A' = MEM'[D] = dsub(A, MEM[D]), A the minuend, C' = succ(C), D' = succ(D). Its corners:
equal operands give 0, a word 0 gives A, and a second `|` with the same A restores the word. -/
def Obligations.SubDigitSubtractsTheWordAtD : Prop :=
  encode .sub = 124 ∧ ∀ (cfg : Config) (b : Block cfg), b.status = .running →
    Sys2Proof.Machine.exec .sub ⟨cfg, b⟩ =
      .next ⟨cfg, { b with
        a := Rau.dsub b.a (b.mem.read b.d), mem := b.mem.write b.d (Rau.dsub b.a (b.mem.read b.d)),
        c := Rau.succ b.c, d := Rau.succ b.d, mdr := b.mem.read b.d, phase := .idle }⟩ ∧
    (b.a = b.mem.read b.d → Rau.dsub b.a (b.mem.read b.d) = RingElem.zero cfg.toRauConfig) ∧
    (b.mem.read b.d = RingElem.zero cfg.toRauConfig → Rau.dsub b.a (b.mem.read b.d) = b.a) ∧
    Rau.dsub b.a (Rau.dsub b.a (b.mem.read b.d)) = b.mem.read b.d

/-- 42_instructions.md R166: a ready machine whose word at C is none of the eight opcodes only advances C and D. The
request also clears LOADPHASE and IR holds the word (41_execution_core.md R143, R145). -/
def Obligations.UnmappedWordOnlyAdvances : Prop :=
  ∀ (cfg : Config) (b : Block cfg), b.Ready → (∀ i : Instr, (b.mem.read b.c).val ≠ encode i) →
    Sys2Proof.Machine.step ⟨cfg, b⟩ =
      .next ⟨cfg, { b with
        c := Rau.succ b.c, d := Rau.succ b.d, loadPhase := false, ir := b.mem.read b.c }⟩

/-- 43_io.md R183 with R185: A = MAX ends the run with haltedByEofWrite and no transaction; otherwise the byte A mod 256
is offered, Ok writes it and advances, Failure(k) enters writeError with the CAUSE_W low bits of k and advances
nothing. A and MEM never change. The answer of OutWrite is the output port's next sample, and what a channel has taken is
`written` (log 5). -/
def Obligations.OutWritesAByteOrEndsTheRun : Prop :=
  encode .out = 123 ∧ ∀ (cfg : Config) (b : Block cfg), b.status = .running →
    (b.a = RingElem.max cfg.toRauConfig →
      Sys2Proof.Machine.exec .out ⟨cfg, b⟩ = .next ⟨cfg, { b with status := .haltedByEofWrite, phase := .idle }⟩) ∧
    (b.a ≠ RingElem.max cfg.toRauConfig → b.chan.outSample = some .ok → ∃ ch : Channels,
      Sys2Proof.Machine.exec .out ⟨cfg, b⟩ =
        .next ⟨cfg, { b with c := Rau.succ b.c, d := Rau.succ b.d, phase := .idle, chan := ch }⟩ ∧
      ch.written = b.chan.written ++ [BitVec.ofNat 8 (b.a.val % 256)]) ∧
    ∀ k : Nat, b.a ≠ RingElem.max cfg.toRauConfig → b.chan.outSample = some (.failure k) → ∃ ch : Channels,
      Sys2Proof.Machine.exec .out ⟨cfg, b⟩ =
        .next ⟨cfg, { b with status := .writeError (BitVec.ofNat cfg.causeWidth k), phase := .idle, chan := ch }⟩ ∧
      ch.written = b.chan.written

/-- 43_io.md R184 with R186: a byte b gives A = b, end of stream gives A = MAX, and both advance; Failure(k) enters
readError with the CAUSE_W low bits of k, sets A = MAX and advances nothing. MEM never changes. The answer of InRead is
the input port's next sample (log 5). -/
def Obligations.InReadsAByteOrTheSentinel : Prop :=
  encode .inp = 125 ∧ ∀ (cfg : Config) (b : Block cfg), b.status = .running →
    (∀ x : Byte, b.chan.inSample = some (.byte x) → ∃ (e : cfg.Elem) (ch : Channels), e.val = x.toNat ∧
      Sys2Proof.Machine.exec .inp ⟨cfg, b⟩ =
        .next ⟨cfg, { b with a := e, c := Rau.succ b.c, d := Rau.succ b.d, phase := .idle, chan := ch }⟩) ∧
    (b.chan.inSample = some .endOfStream → ∃ ch : Channels,
      Sys2Proof.Machine.exec .inp ⟨cfg, b⟩ =
        .next ⟨cfg, { b with
          a := RingElem.max cfg.toRauConfig, c := Rau.succ b.c, d := Rau.succ b.d, phase := .idle, chan := ch }⟩) ∧
    ∀ k : Nat, b.chan.inSample = some (.failure k) → ∃ ch : Channels,
      Sys2Proof.Machine.exec .inp ⟨cfg, b⟩ =
        .next ⟨cfg, { b with
          a := RingElem.max cfg.toRauConfig, status := .readError (BitVec.ofNat cfg.causeWidth k), phase := .idle,
          chan := ch }⟩

/-- The model's choice (log 5), no rule of the spec: how the record of the two channels moves on. An instruction that
makes a transaction takes exactly one sample of its own port, and OUT with A = MAX takes none. -/
def Obligations.TransactionTakesOneSample : Prop :=
  ∀ (cfg : Config) (b b' : Block cfg),
    (Sys2Proof.Machine.exec .out ⟨cfg, b⟩ = .next ⟨cfg, b'⟩ →
      (b.a = RingElem.max cfg.toRauConfig → b'.chan = b.chan) ∧
      (b.a ≠ RingElem.max cfg.toRauConfig →
        b'.chan.outSamples = b.chan.outSamples.tail ∧ b'.chan.outTaken = b.chan.outTaken + 1)) ∧
    (Sys2Proof.Machine.exec .inp ⟨cfg, b⟩ = .next ⟨cfg, b'⟩ →
      b'.chan.inSamples = b.chan.inSamples.tail ∧ b'.chan.inTaken = b.chan.inTaken + 1)

/-- 43_io.md R182 and R189, 93_implementation_defined.md U6: a silent channel leaves the CORE in its wait state with
STATUS running and C, D, A and MEM as they were; and a machine found waiting carries the same instruction on. That a
sample is used up is the model's record of the channel (log 5). -/
def Obligations.SilentChannelKeepsTheCoreWaiting : Prop :=
  ∀ (cfg : Config) (b : Block cfg), b.status = .running →
    (b.a ≠ RingElem.max cfg.toRauConfig → b.chan.outSample = none →
      Sys2Proof.Machine.exec .out ⟨cfg, b⟩ =
        .next ⟨cfg, { b with
          phase := .outWait,
          chan := { b.chan with outSamples := b.chan.outSamples.tail, outTaken := b.chan.outTaken + 1 } }⟩) ∧
    (b.chan.inSample = none →
      Sys2Proof.Machine.exec .inp ⟨cfg, b⟩ =
        .next ⟨cfg, { b with
          phase := .inWait,
          chan := { b.chan with inSamples := b.chan.inSamples.tail, inTaken := b.chan.inTaken + 1 } }⟩) ∧
    (b.phase = .outWait → b.a ≠ RingElem.max cfg.toRauConfig →
      Sys2Proof.Machine.step ⟨cfg, b⟩ = Sys2Proof.Machine.exec .out ⟨cfg, b⟩) ∧
    (b.phase = .inWait → Sys2Proof.Machine.step ⟨cfg, b⟩ = Sys2Proof.Machine.exec .inp ⟨cfg, b⟩)

/-! ## Frames -/

/-- What HALT, LDD, JMP and NOP leave: A, all of memory, LOADPHASE, IR, the channels; MDR for HALT and NOP; STATUS for
all but HALT; C and D for HALT. The advance of D by every step that stays running is 41_execution_core.md R136. -/
def Obligations.RegisterInstructionsFrame : Prop :=
  ∀ (cfg : Config) (b b' : Block cfg) (i : Instr), i = .halt ∨ i = .ldd ∨ i = .jmp ∨ i = .nop →
    Sys2Proof.Machine.exec i ⟨cfg, b⟩ = .next ⟨cfg, b'⟩ →
      b'.a = b.a ∧ (∀ addr, b'.mem.read addr = b.mem.read addr) ∧ b'.loadPhase = b.loadPhase ∧ b'.ir = b.ir ∧
      b'.chan = b.chan ∧ (i = .halt ∨ i = .nop → b'.mdr = b.mdr) ∧ (i ≠ .halt → b'.status = b.status) ∧
      (i = .halt → b'.c = b.c ∧ b'.d = b.d)

/-- What ROT and SUB leave: STATUS, LOADPHASE, IR, the channels, and every word of memory but the one at the D they
started with, which is the address stored to; in a canonical memory that word and A hold the same value
(40_ring_unit.md R110). -/
def Obligations.StoringInstructionsFrame : Prop :=
  ∀ (cfg : Config) (b b' : Block cfg) (i : Instr), i = .rot ∨ i = .sub →
    Sys2Proof.Machine.exec i ⟨cfg, b⟩ = .next ⟨cfg, b'⟩ →
      b'.status = b.status ∧ b'.loadPhase = b.loadPhase ∧ b'.ir = b.ir ∧ b'.chan = b.chan ∧
      (∀ addr, addr ≠ b.d → b'.mem.read addr = b.mem.read addr) ∧ (b.mem.wf → b'.mem.read b.d = b'.a)

/-- What OUT and IN leave: all of memory, LOADPHASE, IR, MDR; OUT leaves A and the input side, IN the output side; and a
step that ends in a terminal status or in a wait leaves C and D. -/
def Obligations.ChannelInstructionsFrame : Prop :=
  ∀ (cfg : Config) (b b' : Block cfg) (i : Instr), i = .out ∨ i = .inp →
    Sys2Proof.Machine.exec i ⟨cfg, b⟩ = .next ⟨cfg, b'⟩ →
      (∀ addr, b'.mem.read addr = b.mem.read addr) ∧ b'.loadPhase = b.loadPhase ∧ b'.ir = b.ir ∧ b'.mdr = b.mdr ∧
      (i = .out → b'.a = b.a ∧ b'.chan.inSamples = b.chan.inSamples ∧ b'.chan.inTaken = b.chan.inTaken) ∧
      (i = .inp → b'.chan.outSamples = b.chan.outSamples ∧ b'.chan.outTaken = b.chan.outTaken ∧
        b'.chan.written = b.chan.written) ∧
      (b'.status ≠ .running ∨ b'.phase ≠ .idle → b'.c = b.c ∧ b'.d = b.d)

/-! ## The step -/

/-- 41_execution_core.md R132, R134, R135: when the word at C of a ready machine decodes to an instruction, step is that
instruction's meaning on the machine that has accepted the request (LOADPHASE cleared) and latched the word in IR. -/
def Obligations.StepRunsTheDecodedInstruction : Prop :=
  ∀ (cfg : Config) (b : Block cfg) (i : Instr), b.Ready → decode (b.mem.read b.c).val = .instr i →
    Sys2Proof.Machine.step ⟨cfg, b⟩ =
      Sys2Proof.Machine.exec i ⟨cfg, { b with loadPhase := false, ir := b.mem.read b.c }⟩

/-- 41_execution_core.md R131: a step requested in a terminal status changes none of A, C, D, MEM and STATUS and makes
no transaction. Once LOADPHASE is 0, as it is from the first accepted request on (10_state.md R34 (a)), the whole state
stays as it was. -/
def Obligations.TerminalStepChangesNothing : Prop :=
  ∀ (cfg : Config) (b : Block cfg), b.phase = .idle → b.status ≠ .running →
    ∃ b' : Block cfg, Sys2Proof.Machine.step ⟨cfg, b⟩ = .next ⟨cfg, b'⟩ ∧ b'.SameVisible b ∧
      (b.loadPhase = false → b' = b)

/-- 10_state.md R31, 60_exceptions.md R205: a terminal status is absorbing, over any number of further steps. That
LOADPHASE is 0 after them is log 12, which matters only where a terminal status and LOADPHASE = 1 stand together. -/
def Obligations.TerminalStatusIsAbsorbing : Prop :=
  ∀ (cfg : Config) (b : Block cfg) (n : Nat), b.phase = .idle → b.status ≠ .running →
    Host.Core.run Sys2Proof.core (n + 1) (⟨cfg, b⟩ : State) = .next (⟨cfg, { b with loadPhase := false }⟩ : State)

/-- 60_exceptions.md R200, 20_memory.md R46, 00_scope.md R5: from every state, step answers a next state, of the same
configuration. Nothing faults and nothing is refused. -/
def Obligations.StepAlwaysAnswersANextState : Prop :=
  ∀ (cfg : Config) (b : Block cfg), ∃ b' : Block cfg, Sys2Proof.Machine.step ⟨cfg, b⟩ = .next ⟨cfg, b'⟩ ∧ b'.AtRest

/-- 41_execution_core.md R140, the table of status transitions, for a step from a ready machine (a silent channel leaves
it running, in the wait) and for one in a terminal status. -/
def Obligations.StatusFollowsTheTransitionTable : Prop :=
  ∀ (cfg : Config) (b b' : Block cfg), b.phase = .idle → Sys2Proof.Machine.step ⟨cfg, b⟩ = .next ⟨cfg, b'⟩ →
    (b.status ≠ .running → b'.status = b.status) ∧
    (b.status = .running → b'.status =
      match decode (b.mem.read b.c).val with
      | .instr .halt => .haltedByHaltCommand
      | .instr .out =>
        if b.a = RingElem.max cfg.toRauConfig then .haltedByEofWrite
        else match b.chan.outSample with
          | some (.failure k) => .writeError (BitVec.ofNat cfg.causeWidth k)
          | _ => .running
      | .instr .inp =>
        match b.chan.inSample with
        | some (.failure k) => .readError (BitVec.ofNat cfg.causeWidth k)
        | _ => .running
      | _ => .running)

/-- 60_exceptions.md R204 and 41_execution_core.md R137: a step that ends in a terminal status leaves C at the
terminating instruction, D and MEM as they were, and A as it was but for IN's failure, which sets it to MAX. -/
def Obligations.TerminalEventsArePrecise : Prop :=
  ∀ (cfg : Config) (b b' : Block cfg), b.Ready → Sys2Proof.Machine.step ⟨cfg, b⟩ = .next ⟨cfg, b'⟩ →
    b'.status ≠ .running →
      b'.c = b.c ∧ b'.d = b.d ∧ b'.mem = b.mem ∧
      b'.a = (if decode (b.mem.read b.c).val = .instr .inp then RingElem.max cfg.toRauConfig else b.a)

/-- 41_execution_core.md R136: after a step that is done and still running, C and D are the successors of the values
execute left: the loaded word for JMP's C and LDD's D, the old values otherwise. -/
def Obligations.RunningStepAdvancesCAndD : Prop :=
  ∀ (cfg : Config) (b b' : Block cfg), b.Ready → Sys2Proof.Machine.step ⟨cfg, b⟩ = .next ⟨cfg, b'⟩ → b'.Ready →
    b'.c = Rau.succ (if decode (b.mem.read b.c).val = .instr .jmp then b.mem.read b.d else b.c) ∧
    b'.d = Rau.succ (if decode (b.mem.read b.c).val = .instr .ldd then b.mem.read b.d else b.d)

/-- 10_state.md R25: C and D stay equal until LDD changes D or JMP changes C. -/
def Obligations.CAndDStayEqual : Prop :=
  ∀ (cfg : Config) (b b' : Block cfg), b.Ready → b.c = b.d →
    decode (b.mem.read b.c).val ≠ .instr .ldd → decode (b.mem.read b.c).val ≠ .instr .jmp →
    Sys2Proof.Machine.step ⟨cfg, b⟩ = .next ⟨cfg, b'⟩ → b'.c = b'.d

/-- 60_exceptions.md R214: no step and no clock edge, whatever the pins, enters noIoInfiniteLoop. -/
def Obligations.NoIoInfiniteLoopIsNeverEntered : Prop :=
  ∀ (cfg : Config) (b b' : Block cfg), b.status ≠ .noIoInfiniteLoop →
    (Sys2Proof.Machine.step ⟨cfg, b⟩ = .next ⟨cfg, b'⟩ → b'.status ≠ .noIoInfiniteLoop) ∧
    ∀ p : PinsIn cfg, b.edge p = .next b' → b'.status ≠ .noIoInfiniteLoop

/-- 41_execution_core.md R138: one step changes no word but MEM[D], takes at most one answer from each channel and at
most one in all, and writes at most one byte. -/
def Obligations.StepTouchesOneWordAndOneChannel : Prop :=
  ∀ (cfg : Config) (b b' : Block cfg), b.Ready → Sys2Proof.Machine.step ⟨cfg, b⟩ = .next ⟨cfg, b'⟩ →
    (∀ addr, addr ≠ b.d → b'.mem.read addr = b.mem.read addr) ∧
    b'.chan.inTaken + b'.chan.outTaken ≤ b.chan.inTaken + b.chan.outTaken + 1 ∧
    (b'.chan.written = b.chan.written ∨
      b'.chan.written = b.chan.written ++ [BitVec.ofNat 8 (b.a.val % 256)] ∧
        decode (b.mem.read b.c).val = .instr .out ∧ b.a ≠ RingElem.max cfg.toRauConfig)

/-- 70_reset_and_hazards.md R235 and 20_memory.md R58: where D = C the operand is the instruction's own word; the step
runs the word as fetched. LDD sets D' = 43, JMP sets C' = 95, ROT rewrites its own word to rotr(62), SUB to
dsub(A, 124); in the canonical configuration rotr(62) = 39386, an unmapped word. -/
def Obligations.InstructionsOnTheirOwnWord : Prop :=
  (∀ (cfg : Config) (b b' : Block cfg), b.Ready → b.mem.wf → b.d = b.c →
    Sys2Proof.Machine.step ⟨cfg, b⟩ = .next ⟨cfg, b'⟩ →
      ((b.mem.read b.c).val = 42 → b'.d.val = 43) ∧
      ((b.mem.read b.c).val = 94 → b'.c.val = 95) ∧
      ((b.mem.read b.c).val = 62 → b'.mem.read b.c = Rau.rotr (encodeWord cfg .rot) ∧ b'.status = .running) ∧
      ((b.mem.read b.c).val = 124 → b'.mem.read b.c = Rau.dsub b.a (encodeWord cfg .sub) ∧ b'.status = .running)) ∧
  (Rau.rotr (encodeWord Config.canonical .rot)).val = 39386 ∧ decode 39386 = .unmapped

/-- 10_state.md R34: the hidden state is not readable by an instruction. Two ready machines that agree on A, C, D, MEM,
STATUS and the world outside, and differ at most in LOADPHASE, IR and MDR, still agree after a step. -/
def Obligations.HiddenStateIsNotObservable : Prop :=
  ∀ (cfg : Config) (b₁ b₂ b₁' b₂' : Block cfg), b₁.phase = .idle → b₂.phase = .idle → b₁.SameVisible b₂ →
    Sys2Proof.Machine.step ⟨cfg, b₁⟩ = .next ⟨cfg, b₁'⟩ → Sys2Proof.Machine.step ⟨cfg, b₂⟩ = .next ⟨cfg, b₂'⟩ →
    b₁'.SameVisible b₂' ∧ b₁'.phase = b₂'.phase

/-- 42_instructions.md R166, its corner: a machine whose every word is unmapped runs as a stream of no-ops; after n
steps C and D have moved on by n modulo END and nothing else has changed, so they cycle through every address. -/
def Obligations.UnmappedMemoryCyclesForEver : Prop :=
  ∀ (cfg : Config) (b : Block cfg) (n : Nat), b.Ready → (∀ addr, decode (b.mem.read addr).val = .unmapped) →
    ∃ b' : Block cfg, Host.Core.run Sys2Proof.core n (⟨cfg, b⟩ : State) = .next (⟨cfg, b'⟩ : State) ∧
      b'.Ready ∧ b'.a = b.a ∧ b'.mem = b.mem ∧ b'.chan = b.chan ∧
      b'.c.val = (b.c.val + n) % cfg.toRauConfig.modulus ∧ b'.d.val = (b.d.val + n) % cfg.toRauConfig.modulus

/-! ## Invariants -/

/-- Every step from a legal block ends in a legal block: memory stays canonical, every terminal status keeps its record
(60_exceptions.md R201), the micro-state keeps its own, and LOADPHASE is 1 only before the first step. -/
def Obligations.StepKeepsTheBlockLegal : Prop :=
  ∀ (cfg : Config) (b b' : Block cfg), b.Legal → Sys2Proof.Machine.step ⟨cfg, b⟩ = .next ⟨cfg, b'⟩ → b'.Legal

/-- Every clock edge from a legal block, whatever the pins, ends in a legal block. -/
def Obligations.EdgeKeepsTheBlockLegal : Prop :=
  ∀ (cfg : Config) (b b' : Block cfg) (p : PinsIn cfg), b.Legal → b.edge p = .next b' → b'.Legal

/-- The block after reset is legal, in every configuration. -/
def Obligations.ResetBlockIsLegal : Prop := ∀ cfg : Config, (Block.reset cfg).Legal

/-! ## Reset, load and the pins -/

/-- 10_state.md R35, 70_reset_and_hazards.md R231, 00_scope.md R8: the values after reset, in every configuration; the
host's reset state is the canonical one, END = 59049. -/
def Obligations.ResetValues : Prop :=
  (∀ cfg : Config, (Block.reset cfg).a.val = 0 ∧ (Block.reset cfg).c.val = 0 ∧ (Block.reset cfg).d.val = 0 ∧
    (∀ addr, ((Block.reset cfg).mem.read addr).val = 0) ∧ (Block.reset cfg).status.tag = 0#3 ∧
    (Block.reset cfg).status.cause = 0#cfg.causeWidth ∧ (Block.reset cfg).loadPhase = true ∧
    (Block.reset cfg).phase = .idle) ∧
  State.reset.cfg.base = 3 ∧ State.reset.cfg.digits = 10 ∧ State.reset.cfg.width = 16 ∧
  State.reset.cfg.toRauConfig.modulus = 59049

/-- 70_reset_and_hazards.md R230 and R237: from any block with a canonical memory, an edge with `rst` = 1 enters CLEAR
with `busy` = 1, and END further edges later the block holds the reset values, IDLE. IR, MDR and the record of the world
outside are untouched (logs 4 and 5). -/
def Obligations.ResetFromAnyBlock : Prop :=
  ∀ (cfg : Config) (b : Block cfg) (p : PinsIn cfg), b.mem.wf → p.rst = true →
    ∃ b₀ : Block cfg, b.edge p = .next b₀ ∧
      (∀ k < cfg.toRauConfig.modulus, ∃ bk : Block cfg, Block.lowEdges k b₀ = .next bk ∧ bk.pins.busy = true) ∧
      Block.lowEdges cfg.toRauConfig.modulus b₀ =
        .next { Block.reset cfg with ir := b.ir, mdr := b.mdr, chan := b.chan }

/-- 41_execution_core.md R145 and R139: whatever micro-state but CLEAR the block is in, at most five clock edges under
the same world do what `step` does. The architectural effect of a step is the same whatever the micro-sequence. What
`step` does from the middle of a step is the model's choice (log 3), and so is the world that drives the pins, the samples
of the two channels in the state (log 5). -/
def Obligations.ClockEdgesCarryOutTheStep : Prop :=
  ∀ (cfg : Config) (b : Block cfg), (∀ w, b.phase ≠ .clear w) →
    ∃ (n : Nat) (b' : Block cfg), 1 ≤ n ∧ n ≤ 5 ∧ Block.ticks n b = .next b' ∧
      Sys2Proof.Machine.step ⟨cfg, b⟩ = .next ⟨cfg, b'⟩ ∧ b'.AtRest

/-- 70_reset_and_hazards.md R237: the cycles of a step from a ready machine whose channel answers when first asked: the
accepting edge, FETCH 1, EXEC 1 or 2 (ROT and SUB), a wait 1 (IN, and OUT with A ≠ MAX), ADVANCE 1. `busy` is 1 on every
edge between, and `step_ack` on the last alone. The world that drives the pins is the model's choice (log 5). -/
def Obligations.StepTakesTheCyclesOfTheTable : Prop :=
  ∀ (cfg : Config) (b b' : Block cfg) (n : Nat), b.Ready →
    (decode (b.mem.read b.c).val = .instr .out → b.a ≠ RingElem.max cfg.toRauConfig → b.chan.outSample ≠ none) →
    (decode (b.mem.read b.c).val = .instr .inp → b.chan.inSample ≠ none) →
    Sys2Proof.Machine.step ⟨cfg, b⟩ = .next ⟨cfg, b'⟩ →
    n = (match decode (b.mem.read b.c).val with
      | .instr .rot => 5
      | .instr .sub => 5
      | .instr .inp => 5
      | .instr .out => if b.a = RingElem.max cfg.toRauConfig then 4 else 5
      | _ => 4) →
    Block.ticks n b = .next b' ∧
    ∀ k, 1 ≤ k → k < n → ∃ bk : Block cfg, Block.ticks k b = .next bk ∧ bk.pins.busy = true ∧
      (bk.pins.stepAck = true ↔ k + 1 = n)

/-- 41_execution_core.md R143, R144: a request at an edge with `busy` = 0 is accepted: LOADPHASE is cleared and the
sequencer leaves for FETCH, or for ADVANCE alone in a terminal status; a request while `busy` = 1 makes no difference;
the edge after `step_ack` leaves `busy` = 0. That a request accepted in a terminal status clears LOADPHASE too is the
model's reading of R143 beside R144, which says that nothing else changes (log 12). -/
def Obligations.StepRequestHandshake : Prop :=
  ∀ (cfg : Config) (b : Block cfg) (p : PinsIn cfg), p.rst = false →
    (b.phase = .idle → p.ldWe = false → p.stepReq = true →
      b.edge p = .next { b with loadPhase := false, phase := if b.status = .running then .fetch else .advance }) ∧
    (b.phase = .idle → p.ldWe = false → p.stepReq = false → b.edge p = .next b) ∧
    (b.pins.busy = true → b.edge p = b.edge { p with stepReq := false } ∧ b.edge p = b.edge { p with stepReq := true }) ∧
    (b.pins.stepAck = true → ∃ b', b.edge p = .next b' ∧ b'.pins.busy = false ∧
      (b.status ≠ .running → b' = { b with phase := .idle }))

/-- 20_memory.md R60, R61: with `ld_we` = 1 and no step request, in IDLE with LOADPHASE = 1, the target `ld_sel` names
takes `ld_data`; a value above MAX, or an address above MAX, is refused whatever `ld_sel` is; with LOADPHASE = 0 the port
is ignored. That a closed port refuses nothing, whatever is on it, is the model's reading (log 10). -/
def Obligations.LoadPortWritesTheSelectedTarget : Prop :=
  ∀ (cfg : Config) (b : Block cfg) (p : PinsIn cfg), p.rst = false → p.ldWe = true → p.stepReq = false →
    b.phase = .idle →
    (b.loadPhase = false → b.edge p = .next b) ∧
    (b.loadPhase = true → ∀ addr v : cfg.Elem, p.ldAddr = addr.toBus → p.ldData = v.toBus →
      (p.ldSel = 0#2 → b.edge p = .next { b with mem := b.mem.write addr v }) ∧
      (p.ldSel = 1#2 → b.edge p = .next { b with a := v }) ∧
      (p.ldSel = 2#2 → b.edge p = .next { b with c := v }) ∧
      (p.ldSel = 3#2 → b.edge p = .next { b with d := v })) ∧
    (b.loadPhase = true → cfg.toRauConfig.modulus ≤ p.ldData.toNat → b.edge p = .refused .loadNotRingElement) ∧
    (b.loadPhase = true → cfg.toRauConfig.modulus ≤ p.ldAddr.toNat → b.edge p = .refused .loadNotRingElement)

/-- 20_memory.md R60: the loader puts an image of at most END ring elements at the addresses from 0; every word past it
keeps its value. -/
def Obligations.LoadedImageIsReadBack : Prop :=
  ∀ (cfg : Config) (b : Block cfg) (image : List Nat), b.loadPhase = true → b.phase = .idle → b.mem.wf →
    image.length ≤ cfg.toRauConfig.modulus → (∀ w ∈ image, w < cfg.toRauConfig.modulus) →
    ∃ m : Memory cfg, State.loadImage ⟨cfg, b⟩ image = .next ⟨cfg, { b with mem := m }⟩ ∧ m.wf ∧
      ∀ addr : cfg.Elem, (m.read addr).val = image.getD addr.val (b.mem.read addr).val

/-- 43_io.md R180 to R182: at the pins. In a wait with no answer nothing changes, and the offered byte stays; `in_req`
and `out_req` stand in their waits; an answer ends the wait; in_kind = 3 is refused. -/
def Obligations.ChannelPinsHandshake : Prop :=
  ∀ (cfg : Config) (b : Block cfg) (p : PinsIn cfg), p.rst = false →
    (b.phase = .outWait → b.pins.outReq = true ∧ b.pins.outData = BitVec.ofNat 8 (b.a.val % 256) ∧
      (p.outValid = false → b.edge p = .next b) ∧
      (p.outValid = true → p.outFail = false →
        b.edge p = .next { b with
          phase := .advance,
          chan := { b.chan with written := b.chan.written ++ [BitVec.ofNat 8 (b.a.val % 256)] } }) ∧
      (p.outValid = true → p.outFail = true →
        b.edge p = .next { b with phase := .advance, status := .writeError p.outCause })) ∧
    (b.phase = .inWait → b.pins.inReq = true ∧
      (p.inValid = false → b.edge p = .next b) ∧
      (p.inValid = true → p.inKind = 0#2 → ∃ e : cfg.Elem, e.val = p.inData.toNat ∧
        b.edge p = .next { b with phase := .advance, a := e }) ∧
      (p.inValid = true → p.inKind = 1#2 →
        b.edge p = .next { b with phase := .advance, a := RingElem.max cfg.toRauConfig }) ∧
      (p.inValid = true → p.inKind = 2#2 →
        b.edge p = .next { b with
          phase := .advance, a := RingElem.max cfg.toRauConfig, status := .readError p.inCause }) ∧
      (p.inValid = true → p.inKind = 3#2 → b.edge p = .refused .inKindReserved))

/-- 10_state.md R29, R30, R32 and 20_memory.md R62: STATUS as a register has TAG in bits [2:0], 0 in [7:3] and CAUSE from
bit 8; CAUSE is 0 outside the two error values, and TAG is 0 exactly while running; in IDLE the debug port shows MEM at
the address given, A, C, D and STATUS. -/
def Obligations.StatusWordAndDebugPort : Prop :=
  ∀ (cfg : Config) (b : Block cfg),
    (b.status.word.toNat % 8 = b.status.tag.toNat ∧ b.status.word.toNat / 8 % 32 = 0 ∧
      b.status.word.toNat / 256 = b.status.cause.toNat) ∧
    ((∀ k, b.status ≠ .writeError k) → (∀ k, b.status ≠ .readError k) → b.status.cause = 0#cfg.causeWidth) ∧
    (b.status.tag = 0#3 ↔ b.status = .running) ∧
    (b.phase = .idle → ∀ addr : cfg.Elem, b.debug addr.toBus =
      { mem := (b.mem.read addr).toBus, a := b.a.toBus, c := b.c.toBus, d := b.d.toBus, status := b.status.word })

/-- 00_scope.md R6, R7 (with the legal values of R5): elaboration gives an RAU exactly for B ≥ 2, N ≥ 1 and W wide enough
for B^N − 1, and a whole block exactly where also CAUSE_W ≥ 1 and END ≥ 257, with the parameters asked for. -/
def Obligations.ElaborationAcceptsLegalParameters : Prop :=
  ∀ base digits width causeWidth : Nat,
    ((∃ c : RauConfig, RauConfig.elaborate base digits width = .ok c ∧ c.base = base ∧ c.digits = digits ∧
        c.width = width) ↔ 2 ≤ base ∧ 1 ≤ digits ∧ base ^ digits - 1 < 2 ^ width) ∧
    ((∃ cfg : Config, Config.elaborate base digits width causeWidth = .ok cfg ∧ cfg.base = base ∧
        cfg.digits = digits ∧ cfg.width = width ∧ cfg.causeWidth = causeWidth) ↔
      2 ≤ base ∧ 1 ≤ digits ∧ base ^ digits - 1 < 2 ^ width ∧ 1 ≤ causeWidth ∧ 257 ≤ base ^ digits)

/-! ## Memory -/

/-- 20_memory.md R55: a read returns the value of the most recent write to its address, or the value before any write.
The writes are listed oldest first. -/
def Obligations.ReadReturnsTheMostRecentWrite : Prop :=
  ∀ (cfg : Config) (m : Memory cfg) (ws : List (cfg.Elem × cfg.Elem)) (addr : cfg.Elem), m.wf →
    (ws.foldl (fun m' w => m'.write w.1 w.2) m).read addr =
      match ws.reverse.find? (fun w => w.1 == addr) with
      | some w => w.2
      | none => m.read addr

/-- Two memories in the canonical form that read alike at every address are equal data (10_state.md R33). -/
def Obligations.CanonicalMemoriesAreEqualByReads : Prop :=
  ∀ (cfg : Config) (m m' : Memory cfg), m.wf → m'.wf → (∀ addr, m.read addr = m'.read addr) → m = m'

/-! ## The ring arithmetic unit -/

/-- 40_ring_unit.md R92: every ring element is the weighted sum of its digits, and those are the only digits that make
it. -/
def Obligations.DigitsAreUnique : Prop :=
  ∀ (c : RauConfig) (x : RingElem c), x.val = ∑ i : Fin c.digits, (Rau.digit x i).val * c.base ^ i.val ∧
    (∀ i, (Rau.digit x i).val = x.val / c.base ^ i.val % c.base) ∧
    ∀ d : DigitVec c, x.val = ∑ i : Fin c.digits, (d i).val * c.base ^ i.val → d = Rau.decompose x

/-- 40_ring_unit.md R93: recomposition is the weighted sum, and no product and no partial sum exceeds MAX. -/
def Obligations.ComposeIsTheWeightedSum : Prop :=
  ∀ (c : RauConfig) (d : DigitVec c),
    (Rau.compose d).val = ∑ i : Fin c.digits, (d i).val * c.base ^ i.val ∧
    (∀ i, (d i).val * c.base ^ i.val ≤ (RingElem.max c).val) ∧
    ∀ k : Nat, ∑ i : Fin c.digits with i.val < k, (d i).val * c.base ^ i.val ≤ (RingElem.max c).val

/-- 40_ring_unit.md R94: compose and decompose are inverses, both ways. -/
def Obligations.ComposeAndDecomposeAreInverse : Prop :=
  ∀ c : RauConfig, (∀ x : RingElem c, Rau.compose (Rau.decompose x) = x) ∧
    ∀ d : DigitVec c, Rau.decompose (Rau.compose d) = d

/-- 40_ring_unit.md R97, R98: succ and pred modulo END, as the branches that compute them, with their op codes. -/
def Obligations.SuccAndPredWrap : Prop :=
  Rau.decodeOp 0b010#3 = some .succ ∧ Rau.decodeOp 0b011#3 = some .pred ∧
  ∀ (c : RauConfig) (x : RingElem c),
    (Rau.succ x).val = (x.val + 1) % c.modulus ∧
    (Rau.succ x).val = (if x = RingElem.max c then 0 else x.val + 1) ∧
    ((Rau.pred x).val : Int) = ((x.val : Int) - 1) % (c.modulus : Int) ∧
    (Rau.pred x).val = (if x.val = 0 then (RingElem.max c).val else x.val - 1)

/-- 40_ring_unit.md R99: add is exact modulo END, by one conditional subtraction and by the branch that never forms a
value above MAX. -/
def Obligations.AddIsExactModuloEnd : Prop :=
  Rau.decodeOp 0b000#3 = some .add ∧
  ∀ (c : RauConfig) (x y : RingElem c),
    (Rau.add x y).val = (x.val + y.val) % c.modulus ∧
    (Rau.add x y).val = (if c.modulus ≤ x.val + y.val then x.val + y.val - c.modulus else x.val + y.val) ∧
    (Rau.add x y).val =
      (if y.val = 0 then x.val
       else if c.modulus - y.val ≤ x.val then x.val - (c.modulus - y.val) else x.val + y.val)

/-- 40_ring_unit.md R100: sub is exact modulo END, as the branches that compute it. -/
def Obligations.SubIsExactModuloEnd : Prop :=
  Rau.decodeOp 0b001#3 = some .sub ∧
  ∀ (c : RauConfig) (x y : RingElem c),
    ((Rau.sub x y).val : Int) = ((x.val : Int) - (y.val : Int)) % (c.modulus : Int) ∧
    (Rau.sub x y).val = (if y.val ≤ x.val then x.val - y.val else x.val + (c.modulus - y.val))

/-- 40_ring_unit.md R101: rotr in closed form, (x mod B)·B^(N−1) + (x div B), and digit by digit; the identity where
N = 1, and on every value whose digits are all the same, 0 and MAX among them. -/
def Obligations.RotrRotatesTheDigits : Prop :=
  Rau.decodeOp 0b100#3 = some .rotr ∧
  ∀ (c : RauConfig) (x : RingElem c),
    (Rau.rotr x).val = x.val % c.base * c.base ^ (c.digits - 1) + x.val / c.base ∧
    (∀ (i : Fin c.digits) (h : i.val + 1 < c.digits), Rau.digit (Rau.rotr x) i = Rau.digit x ⟨i.val + 1, h⟩) ∧
    (∀ i : Fin c.digits, i.val + 1 = c.digits → (Rau.digit (Rau.rotr x) i).val = x.val % c.base) ∧
    (c.digits = 1 → Rau.rotr x = x) ∧
    ((∀ i j : Fin c.digits, Rau.digit x i = Rau.digit x j) → Rau.rotr x = x) ∧
    Rau.rotr (RingElem.zero c) = RingElem.zero c ∧ Rau.rotr (RingElem.max c) = RingElem.max c

/-- 40_ring_unit.md R102: dsub subtracts each digit modulo B with no borrow; its corners; and the source's vector, where
it differs from sub. -/
def Obligations.DsubSubtractsEachDigit : Prop :=
  Rau.decodeOp 0b101#3 = some .dsub ∧
  (∀ (c : RauConfig) (x y : RingElem c),
    (∀ i, ((Rau.digit (Rau.dsub x y) i).val : Int) =
      ((c.base : Int) + (Rau.digit x i).val - (Rau.digit y i).val) % (c.base : Int)) ∧
    Rau.dsub x x = RingElem.zero c ∧ Rau.dsub x (RingElem.zero c) = x) ∧
  (∀ x y : Config.canonical.Elem, x.val = 194 → y.val = 52 → (Rau.dsub x y).val = 178) ∧
  ∀ x y : Config.canonical.Elem, x.val = 0 → y.val = 1 → (Rau.dsub x y).val = 2 ∧ (Rau.sub x y).val = 59048

/-- 40_ring_unit.md R103, all nine laws, (a) to (i). -/
def Obligations.RingUnitLaws : Prop :=
  ∀ (c : RauConfig) (x : RingElem c),
    (Rau.succ (Rau.pred x) = x ∧ Rau.pred (Rau.succ x) = x) ∧
    Rau.succ (RingElem.max c) = RingElem.zero c ∧
    Rau.pred (RingElem.zero c) = RingElem.max c ∧
    Rau.add x (RingElem.zero c) = x ∧
    (Rau.add (RingElem.max c) (RingElem.max c)).val = (RingElem.max c).val - 1 ∧
    (∀ one : RingElem c, one.val = 1 →
      Rau.add one (RingElem.max c) = RingElem.zero c ∧ Rau.add (RingElem.max c) one = RingElem.zero c) ∧
    Rau.dsub x x = RingElem.zero c ∧
    Rau.dsub x (RingElem.zero c) = x ∧
    Rau.rotr^[c.digits] x = x

/-- 40_ring_unit.md R104, the derived laws (a) to (f). In (e) the inverse of rotr moves digit N − 1 to position 0. -/
def Obligations.RingUnitDerivedLaws : Prop :=
  ∀ (c : RauConfig),
    (∀ x y z : RingElem c, Rau.add x y = Rau.add y x ∧ Rau.add (Rau.add x y) z = Rau.add x (Rau.add y z) ∧
      Rau.sub (Rau.add x y) y = x ∧ Rau.add (Rau.sub x y) y = x) ∧
    (∀ x y : RingElem c, Rau.dsub x (Rau.dsub x y) = y) ∧
    (∀ x y : RingElem c, Rau.dsub (Rau.dsub x y) x = Rau.dsub (RingElem.zero c) y) ∧
    (c.base = 2 → ∀ x y : RingElem c, (Rau.dsub x y).val = x.val ^^^ y.val) ∧
    (Function.Bijective (Rau.rotr (c := c)) ∧
      ∀ x y : RingElem c, Rau.rotr x = y → ∀ i j : Fin c.digits, i.val + 1 = c.digits → j.val = 0 →
        Rau.digit x j = Rau.digit y i) ∧
    ∀ x y : RingElem c, Rau.rotr (Rau.dsub x y) = Rau.dsub (Rau.rotr x) (Rau.rotr y)

/-- 40_ring_unit.md R105, its general part: the order of rotr is exactly N, since the orbit of 1 has N elements; every
orbit's length divides N; 0 and MAX are fixed points. -/
def Obligations.RotrHasOrderExactlyN : Prop :=
  ∀ (c : RauConfig),
    (∀ x : RingElem c, Rau.rotr^[c.digits] x = x) ∧
    (∀ one : RingElem c, one.val = 1 → ∀ k : Nat, 0 < k → k < c.digits → Rau.rotr^[k] one ≠ one) ∧
    (∀ x : RingElem c, Function.minimalPeriod Rau.rotr x ∣ c.digits) ∧
    Rau.rotr (RingElem.zero c) = RingElem.zero c ∧ Rau.rotr (RingElem.max c) = RingElem.max c

/-- 40_ring_unit.md R95: where B = 2^k, a digit is a slice of k bits; and where W = k·N, every W-bit pattern is a ring
element and add wraps at 2^W. -/
def Obligations.PowerOfTwoBaseIsABitSlice : Prop :=
  ∀ (c : RauConfig) (k : Nat), c.base = 2 ^ k →
    (∀ (x : RingElem c) (i : Fin c.digits), (Rau.digit x i).val = (x.toBus.extractLsb' (k * i.val) k).toNat) ∧
    (c.width = k * c.digits → c.modulus = 2 ^ c.width ∧ (∀ v : BitVec c.width, Rau.isValid v = true) ∧
      ∀ x y : RingElem c, (Rau.add x y).toBus = x.toBus + y.toBus)

/-- 40_ring_unit.md R96, R106, R107 and 30_encoding.md R78: at the ports, with ring-element operands, each op code gives
its operation's result; `v` is isValid(x) for every op and every pattern; VALID answers 1 or 0 on every pattern; and the
digit i of x stands in its own DW bits of `dig`. That VALID's `r` is defined where x or y is above MAX is the model's
reading of R96 and R106 beside R108 (log 8). -/
def Obligations.RauPortsGiveTheOperations : Prop :=
  ∀ (c : RauConfig),
    (∀ (op : BitVec 3) (x y : BitVec c.width), (Rau.ports op x y).v = decide (x.toNat ≤ c.modulus - 1)) ∧
    (∀ x y : BitVec c.width, (Rau.ports 0b110#3 x y).r.toNat = if x.toNat ≤ c.modulus - 1 then 1 else 0) ∧
    ∀ x y : RingElem c,
      (Rau.ports 0b000#3 x.toBus y.toBus).r = (Rau.add x y).toBus ∧
      (Rau.ports 0b001#3 x.toBus y.toBus).r = (Rau.sub x y).toBus ∧
      (Rau.ports 0b010#3 x.toBus y.toBus).r = (Rau.succ x).toBus ∧
      (Rau.ports 0b011#3 x.toBus y.toBus).r = (Rau.pred x).toBus ∧
      (Rau.ports 0b100#3 x.toBus y.toBus).r = (Rau.rotr x).toBus ∧
      (Rau.ports 0b101#3 x.toBus y.toBus).r = (Rau.dsub x y).toBus ∧
      ∀ op : BitVec 3, op ≠ 0b111#3 → ∀ i : Fin c.digits,
        ((Rau.ports op x.toBus y.toBus).dig.extractLsb' (c.digitWidth * i.val) c.digitWidth).toNat =
          (Rau.digit x i).val
end

