-- ==== Sys2Proof/Laws/Memory.lean ====
section
/-! SUPPORT. The laws of memory: what a read after a write gives, and that every memory operation keeps the canonical
form. -/

namespace Sys2Proof.Machine

variable {cfg : Config}

/-- An empty list of cells is canonical: the memory after reset. -/
theorem Memory.nil_wf : Memory.wf ([] : Memory cfg) := by simp [Memory.wf]

@[simp] theorem Memory.read_nil (a : cfg.Elem) : Memory.read ([] : Memory cfg) a = Memory.unlisted cfg := rfl

theorem Memory.read_cons (k w : cfg.Elem) (m : Memory cfg) (a : cfg.Elem) :
    Memory.read ((k, w) :: m) a = if k = a then w else m.read a := rfl

/-- An address below every listed one reads as unlisted. -/
theorem Memory.read_of_lt {m : Memory cfg} {a : cfg.Elem} (h : ∀ p ∈ m, a < p.1) : m.read a = Memory.unlisted cfg := by
  induction m with
  | nil => rfl
  | cons p m ih =>
    obtain ⟨k, w⟩ := p
    have hk : k ≠ a := (h (k, w) List.mem_cons_self).ne'
    rw [Memory.read_cons, if_neg hk, ih fun q hq => h q (List.mem_cons_of_mem _ hq)]

/-- A write leaves every other address as it was, whatever the list's form. -/
theorem Memory.read_write_other (m : Memory cfg) {a a' : cfg.Elem} (v : cfg.Elem) (h : a' ≠ a) :
    (m.write a v).read a' = m.read a' := by
  induction m with
  | nil => by_cases hv : v = Memory.unlisted cfg <;> simp [Memory.write, hv, Memory.read, h.symm]
  | cons p m ih =>
    obtain ⟨k, w⟩ := p
    unfold Memory.write
    split_ifs with h1 h2 h3 h4
    · rfl
    · simp [Memory.read, h.symm]
    · subst h3; simp [Memory.read, h.symm]
    · subst h3; simp [Memory.read, h.symm]
    · simp [Memory.read, ih]

/-- A write is read back at its own address. -/
theorem Memory.read_write_same {m : Memory cfg} (hm : m.wf) (a v : cfg.Elem) : (m.write a v).read a = v := by
  induction m with
  | nil => by_cases hv : v = Memory.unlisted cfg <;> simp [Memory.write, hv, Memory.read]
  | cons p m ih =>
    obtain ⟨k, w⟩ := p
    have hs := List.pairwise_cons.mp hm.1
    have htl : Memory.wf m := ⟨hs.2, fun q hq => hm.2 q (List.mem_cons_of_mem _ hq)⟩
    unfold Memory.write
    split_ifs with h1 h2 h3 h4
    · subst h2
      rw [Memory.read_cons, if_neg h1.ne', Memory.read_of_lt fun q hq => h1.trans (hs.1 q hq)]
    · simp [Memory.read]
    · subst h3 h4
      exact Memory.read_of_lt hs.1
    · simp [Memory.read]
    · rw [Memory.read_cons, if_neg (Ne.symm h3), ih htl]

/-- An address a write leaves in the list was there before or is the one written. -/
theorem Memory.mem_write {m : Memory cfg} {a v : cfg.Elem} {p : cfg.Elem × cfg.Elem} (h : p ∈ m.write a v) :
    p ∈ m ∨ (p = (a, v) ∧ v ≠ Memory.unlisted cfg) := by
  induction m with
  | nil => by_cases hv : v = Memory.unlisted cfg <;> simp_all [Memory.write]
  | cons q m ih =>
    obtain ⟨k, w⟩ := q
    unfold Memory.write at h
    split_ifs at h with h1 h2 h3 h4
    · exact .inl h
    · rcases List.mem_cons.mp h with rfl | h
      · exact .inr ⟨rfl, h2⟩
      · exact .inl h
    · exact .inl (List.mem_cons_of_mem _ h)
    · rcases List.mem_cons.mp h with rfl | h
      · exact .inr ⟨rfl, h4⟩
      · exact .inl (List.mem_cons_of_mem _ h)
    · rcases List.mem_cons.mp h with rfl | h
      · exact .inl List.mem_cons_self
      · exact (ih h).imp_left (List.mem_cons_of_mem _)

/-- A write keeps the canonical form. -/
theorem Memory.write_wf {m : Memory cfg} (hm : m.wf) (a v : cfg.Elem) : (m.write a v).wf := by
  refine ⟨?_, fun p hp => (Memory.mem_write hp).elim (hm.2 p) fun h => by rw [h.1]; exact h.2⟩
  induction m with
  | nil => by_cases hv : v = Memory.unlisted cfg <;> simp [Memory.write, hv]
  | cons q m ih =>
    obtain ⟨k, w⟩ := q
    have hs := List.pairwise_cons.mp hm.1
    have htl : Memory.wf m := ⟨hs.2, fun q hq => hm.2 q (List.mem_cons_of_mem _ hq)⟩
    unfold Memory.write
    split_ifs with h1 h2 h3 h4
    · exact hm.1
    · refine List.pairwise_cons.mpr ⟨fun q hq => ?_, hm.1⟩
      rcases List.mem_cons.mp hq with rfl | hq
      · exact h1
      · exact h1.trans (hs.1 q hq)
    · exact hs.2
    · exact List.pairwise_cons.mpr ⟨fun q hq => h3 ▸ hs.1 q hq, hs.2⟩
    · refine List.pairwise_cons.mpr ⟨fun q hq => ?_, ih htl⟩
      rcases Memory.mem_write hq with hq | ⟨rfl, -⟩
      · exact hs.1 q hq
      · exact lt_of_le_of_ne (not_lt.mp h1) (Ne.symm h3)

/-- CLEAR keeps the canonical form. -/
theorem Memory.clearFrom_wf {m : Memory cfg} (hm : m.wf) (first : cfg.Elem) : (m.clearFrom first).wf :=
  ⟨hm.1.filter _, fun p hp => hm.2 p (List.mem_filter.mp hp).1⟩

/-- CLEAR from address 0 empties the list: every word reads as the reset value. -/
theorem Memory.clearFrom_zero (m : Memory cfg) : m.clearFrom (RingElem.zero cfg.toRauConfig) = [] := by
  refine List.filter_eq_nil_iff.mpr fun p _ => ?_
  simp [RingElem.zero, Fin.lt_def]

/-- What CLEAR leaves: the words below `first` as they were, the rest at the reset value. -/
theorem Memory.read_clearFrom (m : Memory cfg) (first a : cfg.Elem) :
    (m.clearFrom first).read a = if a < first then m.read a else Memory.unlisted cfg := by
  induction m with
  | nil => simp [Memory.clearFrom, Memory.read]
  | cons q m ih =>
    obtain ⟨k, w⟩ := q
    unfold Memory.clearFrom at ih ⊢
    by_cases hk : k < first
    · rw [List.filter_cons_of_pos (by simpa using hk), Memory.read_cons, Memory.read_cons, ih]
      by_cases ha : k = a
      · subst ha; simp [hk]
      · simp [ha]
    · rw [List.filter_cons_of_neg (by simpa using hk), ih, Memory.read_cons]
      by_cases ha : k = a
      · subst ha; simp [hk]
      · simp [ha]

/-- The loader keeps the canonical form. -/
theorem Memory.writeFrom_wf {m : Memory cfg} (hm : m.wf) (addr : Nat) (image : List Nat) :
    (m.writeFrom addr image).wf := by
  induction image generalizing m addr with
  | nil => exact hm
  | cons w ws ih =>
    unfold Memory.writeFrom
    split
    · exact ih (Memory.write_wf hm _ _) _
    · exact hm

end Sys2Proof.Machine
end

