-- ==== Sys2Proof/Laws/State.lean ====
section
/-! SUPPORT. One lemma for each field under each update of the block, and under each update of the channels, so that no
later proof unfolds a record update. -/

namespace Sys2Proof.Machine

variable {cfg : Config}

/-! `Block.setA` writes `a` and nothing else. -/

@[simp] theorem Block.setA_a (b : Block cfg) (v : cfg.Elem) : (b.setA v).a = v := rfl
@[simp] theorem Block.setA_c (b : Block cfg) (v : cfg.Elem) : (b.setA v).c = b.c := rfl
@[simp] theorem Block.setA_d (b : Block cfg) (v : cfg.Elem) : (b.setA v).d = b.d := rfl
@[simp] theorem Block.setA_mem (b : Block cfg) (v : cfg.Elem) : (b.setA v).mem = b.mem := rfl
@[simp] theorem Block.setA_status (b : Block cfg) (v : cfg.Elem) : (b.setA v).status = b.status := rfl
@[simp] theorem Block.setA_loadPhase (b : Block cfg) (v : cfg.Elem) : (b.setA v).loadPhase = b.loadPhase := rfl
@[simp] theorem Block.setA_phase (b : Block cfg) (v : cfg.Elem) : (b.setA v).phase = b.phase := rfl
@[simp] theorem Block.setA_ir (b : Block cfg) (v : cfg.Elem) : (b.setA v).ir = b.ir := rfl
@[simp] theorem Block.setA_mdr (b : Block cfg) (v : cfg.Elem) : (b.setA v).mdr = b.mdr := rfl
@[simp] theorem Block.setA_chan (b : Block cfg) (v : cfg.Elem) : (b.setA v).chan = b.chan := rfl

/-! `Block.setC` writes `c` and nothing else. -/

@[simp] theorem Block.setC_a (b : Block cfg) (v : cfg.Elem) : (b.setC v).a = b.a := rfl
@[simp] theorem Block.setC_c (b : Block cfg) (v : cfg.Elem) : (b.setC v).c = v := rfl
@[simp] theorem Block.setC_d (b : Block cfg) (v : cfg.Elem) : (b.setC v).d = b.d := rfl
@[simp] theorem Block.setC_mem (b : Block cfg) (v : cfg.Elem) : (b.setC v).mem = b.mem := rfl
@[simp] theorem Block.setC_status (b : Block cfg) (v : cfg.Elem) : (b.setC v).status = b.status := rfl
@[simp] theorem Block.setC_loadPhase (b : Block cfg) (v : cfg.Elem) : (b.setC v).loadPhase = b.loadPhase := rfl
@[simp] theorem Block.setC_phase (b : Block cfg) (v : cfg.Elem) : (b.setC v).phase = b.phase := rfl
@[simp] theorem Block.setC_ir (b : Block cfg) (v : cfg.Elem) : (b.setC v).ir = b.ir := rfl
@[simp] theorem Block.setC_mdr (b : Block cfg) (v : cfg.Elem) : (b.setC v).mdr = b.mdr := rfl
@[simp] theorem Block.setC_chan (b : Block cfg) (v : cfg.Elem) : (b.setC v).chan = b.chan := rfl

/-! `Block.setD` writes `d` and nothing else. -/

@[simp] theorem Block.setD_a (b : Block cfg) (v : cfg.Elem) : (b.setD v).a = b.a := rfl
@[simp] theorem Block.setD_c (b : Block cfg) (v : cfg.Elem) : (b.setD v).c = b.c := rfl
@[simp] theorem Block.setD_d (b : Block cfg) (v : cfg.Elem) : (b.setD v).d = v := rfl
@[simp] theorem Block.setD_mem (b : Block cfg) (v : cfg.Elem) : (b.setD v).mem = b.mem := rfl
@[simp] theorem Block.setD_status (b : Block cfg) (v : cfg.Elem) : (b.setD v).status = b.status := rfl
@[simp] theorem Block.setD_loadPhase (b : Block cfg) (v : cfg.Elem) : (b.setD v).loadPhase = b.loadPhase := rfl
@[simp] theorem Block.setD_phase (b : Block cfg) (v : cfg.Elem) : (b.setD v).phase = b.phase := rfl
@[simp] theorem Block.setD_ir (b : Block cfg) (v : cfg.Elem) : (b.setD v).ir = b.ir := rfl
@[simp] theorem Block.setD_mdr (b : Block cfg) (v : cfg.Elem) : (b.setD v).mdr = b.mdr := rfl
@[simp] theorem Block.setD_chan (b : Block cfg) (v : cfg.Elem) : (b.setD v).chan = b.chan := rfl

/-! `Block.setMem` writes `mem` and nothing else. -/

@[simp] theorem Block.setMem_a (b : Block cfg) (m : Memory cfg) : (b.setMem m).a = b.a := rfl
@[simp] theorem Block.setMem_c (b : Block cfg) (m : Memory cfg) : (b.setMem m).c = b.c := rfl
@[simp] theorem Block.setMem_d (b : Block cfg) (m : Memory cfg) : (b.setMem m).d = b.d := rfl
@[simp] theorem Block.setMem_mem (b : Block cfg) (m : Memory cfg) : (b.setMem m).mem = m := rfl
@[simp] theorem Block.setMem_status (b : Block cfg) (m : Memory cfg) : (b.setMem m).status = b.status := rfl
@[simp] theorem Block.setMem_loadPhase (b : Block cfg) (m : Memory cfg) : (b.setMem m).loadPhase = b.loadPhase := rfl
@[simp] theorem Block.setMem_phase (b : Block cfg) (m : Memory cfg) : (b.setMem m).phase = b.phase := rfl
@[simp] theorem Block.setMem_ir (b : Block cfg) (m : Memory cfg) : (b.setMem m).ir = b.ir := rfl
@[simp] theorem Block.setMem_mdr (b : Block cfg) (m : Memory cfg) : (b.setMem m).mdr = b.mdr := rfl
@[simp] theorem Block.setMem_chan (b : Block cfg) (m : Memory cfg) : (b.setMem m).chan = b.chan := rfl

/-! `Block.setStatus` writes `status` and nothing else. -/

@[simp] theorem Block.setStatus_a (b : Block cfg) (st : Status cfg) : (b.setStatus st).a = b.a := rfl
@[simp] theorem Block.setStatus_c (b : Block cfg) (st : Status cfg) : (b.setStatus st).c = b.c := rfl
@[simp] theorem Block.setStatus_d (b : Block cfg) (st : Status cfg) : (b.setStatus st).d = b.d := rfl
@[simp] theorem Block.setStatus_mem (b : Block cfg) (st : Status cfg) : (b.setStatus st).mem = b.mem := rfl
@[simp] theorem Block.setStatus_status (b : Block cfg) (st : Status cfg) : (b.setStatus st).status = st := rfl
@[simp] theorem Block.setStatus_loadPhase (b : Block cfg) (st : Status cfg) : (b.setStatus st).loadPhase = b.loadPhase := rfl
@[simp] theorem Block.setStatus_phase (b : Block cfg) (st : Status cfg) : (b.setStatus st).phase = b.phase := rfl
@[simp] theorem Block.setStatus_ir (b : Block cfg) (st : Status cfg) : (b.setStatus st).ir = b.ir := rfl
@[simp] theorem Block.setStatus_mdr (b : Block cfg) (st : Status cfg) : (b.setStatus st).mdr = b.mdr := rfl
@[simp] theorem Block.setStatus_chan (b : Block cfg) (st : Status cfg) : (b.setStatus st).chan = b.chan := rfl

/-! `Block.setLoadPhase` writes `loadPhase` and nothing else. -/

@[simp] theorem Block.setLoadPhase_a (b : Block cfg) (v : Bool) : (b.setLoadPhase v).a = b.a := rfl
@[simp] theorem Block.setLoadPhase_c (b : Block cfg) (v : Bool) : (b.setLoadPhase v).c = b.c := rfl
@[simp] theorem Block.setLoadPhase_d (b : Block cfg) (v : Bool) : (b.setLoadPhase v).d = b.d := rfl
@[simp] theorem Block.setLoadPhase_mem (b : Block cfg) (v : Bool) : (b.setLoadPhase v).mem = b.mem := rfl
@[simp] theorem Block.setLoadPhase_status (b : Block cfg) (v : Bool) : (b.setLoadPhase v).status = b.status := rfl
@[simp] theorem Block.setLoadPhase_loadPhase (b : Block cfg) (v : Bool) : (b.setLoadPhase v).loadPhase = v := rfl
@[simp] theorem Block.setLoadPhase_phase (b : Block cfg) (v : Bool) : (b.setLoadPhase v).phase = b.phase := rfl
@[simp] theorem Block.setLoadPhase_ir (b : Block cfg) (v : Bool) : (b.setLoadPhase v).ir = b.ir := rfl
@[simp] theorem Block.setLoadPhase_mdr (b : Block cfg) (v : Bool) : (b.setLoadPhase v).mdr = b.mdr := rfl
@[simp] theorem Block.setLoadPhase_chan (b : Block cfg) (v : Bool) : (b.setLoadPhase v).chan = b.chan := rfl

/-! `Block.setPhase` writes `phase` and nothing else. -/

@[simp] theorem Block.setPhase_a (b : Block cfg) (p : Phase cfg) : (b.setPhase p).a = b.a := rfl
@[simp] theorem Block.setPhase_c (b : Block cfg) (p : Phase cfg) : (b.setPhase p).c = b.c := rfl
@[simp] theorem Block.setPhase_d (b : Block cfg) (p : Phase cfg) : (b.setPhase p).d = b.d := rfl
@[simp] theorem Block.setPhase_mem (b : Block cfg) (p : Phase cfg) : (b.setPhase p).mem = b.mem := rfl
@[simp] theorem Block.setPhase_status (b : Block cfg) (p : Phase cfg) : (b.setPhase p).status = b.status := rfl
@[simp] theorem Block.setPhase_loadPhase (b : Block cfg) (p : Phase cfg) : (b.setPhase p).loadPhase = b.loadPhase := rfl
@[simp] theorem Block.setPhase_phase (b : Block cfg) (p : Phase cfg) : (b.setPhase p).phase = p := rfl
@[simp] theorem Block.setPhase_ir (b : Block cfg) (p : Phase cfg) : (b.setPhase p).ir = b.ir := rfl
@[simp] theorem Block.setPhase_mdr (b : Block cfg) (p : Phase cfg) : (b.setPhase p).mdr = b.mdr := rfl
@[simp] theorem Block.setPhase_chan (b : Block cfg) (p : Phase cfg) : (b.setPhase p).chan = b.chan := rfl

/-! `Block.setIr` writes `ir` and nothing else. -/

@[simp] theorem Block.setIr_a (b : Block cfg) (v : cfg.Elem) : (b.setIr v).a = b.a := rfl
@[simp] theorem Block.setIr_c (b : Block cfg) (v : cfg.Elem) : (b.setIr v).c = b.c := rfl
@[simp] theorem Block.setIr_d (b : Block cfg) (v : cfg.Elem) : (b.setIr v).d = b.d := rfl
@[simp] theorem Block.setIr_mem (b : Block cfg) (v : cfg.Elem) : (b.setIr v).mem = b.mem := rfl
@[simp] theorem Block.setIr_status (b : Block cfg) (v : cfg.Elem) : (b.setIr v).status = b.status := rfl
@[simp] theorem Block.setIr_loadPhase (b : Block cfg) (v : cfg.Elem) : (b.setIr v).loadPhase = b.loadPhase := rfl
@[simp] theorem Block.setIr_phase (b : Block cfg) (v : cfg.Elem) : (b.setIr v).phase = b.phase := rfl
@[simp] theorem Block.setIr_ir (b : Block cfg) (v : cfg.Elem) : (b.setIr v).ir = v := rfl
@[simp] theorem Block.setIr_mdr (b : Block cfg) (v : cfg.Elem) : (b.setIr v).mdr = b.mdr := rfl
@[simp] theorem Block.setIr_chan (b : Block cfg) (v : cfg.Elem) : (b.setIr v).chan = b.chan := rfl

/-! `Block.setMdr` writes `mdr` and nothing else. -/

@[simp] theorem Block.setMdr_a (b : Block cfg) (v : cfg.Elem) : (b.setMdr v).a = b.a := rfl
@[simp] theorem Block.setMdr_c (b : Block cfg) (v : cfg.Elem) : (b.setMdr v).c = b.c := rfl
@[simp] theorem Block.setMdr_d (b : Block cfg) (v : cfg.Elem) : (b.setMdr v).d = b.d := rfl
@[simp] theorem Block.setMdr_mem (b : Block cfg) (v : cfg.Elem) : (b.setMdr v).mem = b.mem := rfl
@[simp] theorem Block.setMdr_status (b : Block cfg) (v : cfg.Elem) : (b.setMdr v).status = b.status := rfl
@[simp] theorem Block.setMdr_loadPhase (b : Block cfg) (v : cfg.Elem) : (b.setMdr v).loadPhase = b.loadPhase := rfl
@[simp] theorem Block.setMdr_phase (b : Block cfg) (v : cfg.Elem) : (b.setMdr v).phase = b.phase := rfl
@[simp] theorem Block.setMdr_ir (b : Block cfg) (v : cfg.Elem) : (b.setMdr v).ir = b.ir := rfl
@[simp] theorem Block.setMdr_mdr (b : Block cfg) (v : cfg.Elem) : (b.setMdr v).mdr = v := rfl
@[simp] theorem Block.setMdr_chan (b : Block cfg) (v : cfg.Elem) : (b.setMdr v).chan = b.chan := rfl

/-! `Block.setChan` writes `chan` and nothing else. -/

@[simp] theorem Block.setChan_a (b : Block cfg) (ch : Channels) : (b.setChan ch).a = b.a := rfl
@[simp] theorem Block.setChan_c (b : Block cfg) (ch : Channels) : (b.setChan ch).c = b.c := rfl
@[simp] theorem Block.setChan_d (b : Block cfg) (ch : Channels) : (b.setChan ch).d = b.d := rfl
@[simp] theorem Block.setChan_mem (b : Block cfg) (ch : Channels) : (b.setChan ch).mem = b.mem := rfl
@[simp] theorem Block.setChan_status (b : Block cfg) (ch : Channels) : (b.setChan ch).status = b.status := rfl
@[simp] theorem Block.setChan_loadPhase (b : Block cfg) (ch : Channels) : (b.setChan ch).loadPhase = b.loadPhase := rfl
@[simp] theorem Block.setChan_phase (b : Block cfg) (ch : Channels) : (b.setChan ch).phase = b.phase := rfl
@[simp] theorem Block.setChan_ir (b : Block cfg) (ch : Channels) : (b.setChan ch).ir = b.ir := rfl
@[simp] theorem Block.setChan_mdr (b : Block cfg) (ch : Channels) : (b.setChan ch).mdr = b.mdr := rfl
@[simp] theorem Block.setChan_chan (b : Block cfg) (ch : Channels) : (b.setChan ch).chan = ch := rfl

/-! The channels. -/

@[simp] theorem Channels.takeIn_inSamples (ch : Channels) : (ch.takeIn).inSamples = ch.inSamples.tail := rfl
@[simp] theorem Channels.takeIn_inTaken (ch : Channels) : (ch.takeIn).inTaken = ch.inTaken + 1 := rfl
@[simp] theorem Channels.takeIn_outSamples (ch : Channels) : (ch.takeIn).outSamples = ch.outSamples := rfl
@[simp] theorem Channels.takeIn_outTaken (ch : Channels) : (ch.takeIn).outTaken = ch.outTaken := rfl
@[simp] theorem Channels.takeIn_written (ch : Channels) : (ch.takeIn).written = ch.written := rfl

@[simp] theorem Channels.takeOut_inSamples (ch : Channels) : (ch.takeOut).inSamples = ch.inSamples := rfl
@[simp] theorem Channels.takeOut_inTaken (ch : Channels) : (ch.takeOut).inTaken = ch.inTaken := rfl
@[simp] theorem Channels.takeOut_outSamples (ch : Channels) : (ch.takeOut).outSamples = ch.outSamples.tail := rfl
@[simp] theorem Channels.takeOut_outTaken (ch : Channels) : (ch.takeOut).outTaken = ch.outTaken + 1 := rfl
@[simp] theorem Channels.takeOut_written (ch : Channels) : (ch.takeOut).written = ch.written := rfl

@[simp] theorem Channels.wrote_inSamples (ch : Channels) (x : Byte) : (ch.wrote x).inSamples = ch.inSamples := rfl
@[simp] theorem Channels.wrote_inTaken (ch : Channels) (x : Byte) : (ch.wrote x).inTaken = ch.inTaken := rfl
@[simp] theorem Channels.wrote_outSamples (ch : Channels) (x : Byte) : (ch.wrote x).outSamples = ch.outSamples := rfl
@[simp] theorem Channels.wrote_outTaken (ch : Channels) (x : Byte) : (ch.wrote x).outTaken = ch.outTaken := rfl
@[simp] theorem Channels.wrote_written (ch : Channels) (x : Byte) : (ch.wrote x).written = ch.written ++ [x] := rfl

end Sys2Proof.Machine
end

