-- ==== Sys2Proof/Laws/Ops.lean ====
section
/-! SUPPORT. For each shared operation of a step, what it does to each field, once. -/

namespace Sys2Proof.Machine

variable {cfg : Config}

/-- The advance of a running block moves C and D (41_execution_core.md R136). -/
theorem Block.advance_running {b : Block cfg} (h : b.status = .running) :
    b.advance = (b.setC (Rau.succ b.c)).setD (Rau.succ b.d) := if_pos h

/-- The advance of a terminal block does nothing (41_execution_core.md R137). -/
theorem Block.advance_stopped {b : Block cfg} (h : b.status ≠ .running) : b.advance = b := if_neg h

theorem Block.advance_c (b : Block cfg) : b.advance.c = if b.status = .running then Rau.succ b.c else b.c := by
  unfold Block.advance; split <;> rfl

theorem Block.advance_d (b : Block cfg) : b.advance.d = if b.status = .running then Rau.succ b.d else b.d := by
  unfold Block.advance; split <;> rfl

@[simp] theorem Block.advance_a (b : Block cfg) : b.advance.a = b.a := by unfold Block.advance; split <;> rfl
@[simp] theorem Block.advance_mem (b : Block cfg) : b.advance.mem = b.mem := by unfold Block.advance; split <;> rfl
@[simp] theorem Block.advance_status (b : Block cfg) : b.advance.status = b.status := by
  unfold Block.advance; split <;> rfl
@[simp] theorem Block.advance_loadPhase (b : Block cfg) : b.advance.loadPhase = b.loadPhase := by
  unfold Block.advance; split <;> rfl
@[simp] theorem Block.advance_phase (b : Block cfg) : b.advance.phase = b.phase := by
  unfold Block.advance; split <;> rfl
@[simp] theorem Block.advance_ir (b : Block cfg) : b.advance.ir = b.ir := by unfold Block.advance; split <;> rfl
@[simp] theorem Block.advance_mdr (b : Block cfg) : b.advance.mdr = b.mdr := by unfold Block.advance; split <;> rfl
@[simp] theorem Block.advance_chan (b : Block cfg) : b.advance.chan = b.chan := by unfold Block.advance; split <;> rfl

/-! The end of a step: the advance, and IDLE. -/

@[simp] theorem Block.finish_phase (b : Block cfg) : b.finish.phase = .idle := rfl
@[simp] theorem Block.finish_a (b : Block cfg) : b.finish.a = b.a := by simp [Block.finish]
@[simp] theorem Block.finish_mem (b : Block cfg) : b.finish.mem = b.mem := by simp [Block.finish]
@[simp] theorem Block.finish_status (b : Block cfg) : b.finish.status = b.status := by simp [Block.finish]
@[simp] theorem Block.finish_loadPhase (b : Block cfg) : b.finish.loadPhase = b.loadPhase := by simp [Block.finish]
@[simp] theorem Block.finish_ir (b : Block cfg) : b.finish.ir = b.ir := by simp [Block.finish]
@[simp] theorem Block.finish_mdr (b : Block cfg) : b.finish.mdr = b.mdr := by simp [Block.finish]
@[simp] theorem Block.finish_chan (b : Block cfg) : b.finish.chan = b.chan := by simp [Block.finish]

theorem Block.finish_c (b : Block cfg) : b.finish.c = if b.status = .running then Rau.succ b.c else b.c := by
  simp [Block.finish, Block.advance_c]

theorem Block.finish_d (b : Block cfg) : b.finish.d = if b.status = .running then Rau.succ b.d else b.d := by
  simp [Block.finish, Block.advance_d]

/-- The end of a step that is still running, as one update. -/
theorem Block.finish_running {b : Block cfg} (h : b.status = .running) :
    b.finish = { b with c := Rau.succ b.c, d := Rau.succ b.d, phase := .idle } := by
  unfold Block.finish; rw [Block.advance_running h]; rfl

/-- The end of a step in a terminal status, as one update. -/
theorem Block.finish_stopped {b : Block cfg} (h : b.status ≠ .running) : b.finish = { b with phase := .idle } := by
  unfold Block.finish; rw [Block.advance_stopped h]; rfl

/-- The end of a step does not depend on the micro-state it came from. -/
@[simp] theorem Block.finish_setPhase (b : Block cfg) (p : Phase cfg) : (b.setPhase p).finish = b.finish := by
  by_cases h : b.status = .running
  · simp [Block.finish, Block.advance, h]; rfl
  · simp [Block.finish, Block.advance, h]; rfl

/-! The operations built on one update. -/

@[simp] theorem Block.terminate_eq (b : Block cfg) (st : Status cfg) : b.terminate st = b.setStatus st := rfl
@[simp] theorem Block.accept_eq (b : Block cfg) : b.accept = b.setLoadPhase false := rfl
@[simp] theorem Block.fetch_eq (b : Block cfg) : b.fetch = b.setIr (b.mem.read b.c) := rfl
@[simp] theorem Block.readOperand_eq (b : Block cfg) : b.readOperand = b.setMdr (b.mem.read b.d) := rfl
@[simp] theorem Block.storeResult_eq (b : Block cfg) (z : cfg.Elem) :
    b.storeResult z = (b.setA z).setMem (b.mem.write b.d z) := rfl
@[simp] theorem Block.takeIn_eq (b : Block cfg) : b.takeIn = b.setChan b.chan.takeIn := rfl
@[simp] theorem Block.takeOut_eq (b : Block cfg) : b.takeOut = b.setChan b.chan.takeOut := rfl

/-! The answers of the channels. -/

theorem Block.outAnswered_ok (b : Block cfg) : b.outAnswered .ok = b.setChan (b.chan.wrote (outByte b.a)) := rfl
theorem Block.outAnswered_failure (b : Block cfg) (k : Nat) :
    b.outAnswered (.failure k) = b.setStatus (.writeError (causeOf cfg k)) := rfl
theorem Block.inAnswered_byte (b : Block cfg) (x : Byte) : b.inAnswered (.byte x) = b.setA (inByte cfg x) := rfl
theorem Block.inAnswered_endOfStream (b : Block cfg) :
    b.inAnswered .endOfStream = b.setA (RingElem.max cfg.toRauConfig) := rfl
theorem Block.inAnswered_failure (b : Block cfg) (k : Nat) :
    b.inAnswered (.failure k) = (b.setStatus (.readError (causeOf cfg k))).setA (RingElem.max cfg.toRauConfig) := rfl

theorem Block.awaitOut_silent {b : Block cfg} (h : b.chan.outSample = none) :
    b.awaitOut = b.takeOut.setPhase .outWait := by unfold Block.awaitOut; rw [h]
theorem Block.awaitOut_answered {b : Block cfg} {ans : OutAnswer} (h : b.chan.outSample = some ans) :
    b.awaitOut = (b.takeOut.outAnswered ans).finish := by unfold Block.awaitOut; rw [h]
theorem Block.awaitIn_silent {b : Block cfg} (h : b.chan.inSample = none) :
    b.awaitIn = b.takeIn.setPhase .inWait := by unfold Block.awaitIn; rw [h]
theorem Block.awaitIn_answered {b : Block cfg} {ans : InAnswer} (h : b.chan.inSample = some ans) :
    b.awaitIn = (b.takeIn.inAnswered ans).finish := by unfold Block.awaitIn; rw [h]

/-- The cause a failing channel drives on its pins is the one STATUS keeps. -/
@[simp] theorem causeOf_toNat (cfg : Config) (k : Nat) : causeOf cfg (causeOf cfg k).toNat = causeOf cfg k := by
  apply BitVec.eq_of_toNat_eq
  simp [causeOf]

end Sys2Proof.Machine
end

