-- ==== Sys2Proof/Laws/PerInstr.lean ====
section
/-! SUPPORT. A statement about every instruction as syntax, with one lemma for each constructor. -/

namespace Sys2Proof.Laws

/-- The word of an instruction is well formed, is a byte value, so a ring element of every CORE configuration
(00_scope.md R7), and with a higher bit set it selects nothing (30_encoding.md R73: 256 + 33 = 289 is unmapped). -/
def WordForm.Statement (i : Instr) : Prop :=
  i.wellFormed = true ∧ encode i ≤ 125 ∧ decode (256 + encode i) = .unmapped

theorem WordForm.halt : WordForm.Statement .halt := by unfold WordForm.Statement; decide
theorem WordForm.ldd : WordForm.Statement .ldd := by unfold WordForm.Statement; decide
theorem WordForm.rot : WordForm.Statement .rot := by unfold WordForm.Statement; decide
theorem WordForm.jmp : WordForm.Statement .jmp := by unfold WordForm.Statement; decide
theorem WordForm.nop : WordForm.Statement .nop := by unfold WordForm.Statement; decide
theorem WordForm.out : WordForm.Statement .out := by unfold WordForm.Statement; decide
theorem WordForm.sub : WordForm.Statement .sub := by unfold WordForm.Statement; decide
theorem WordForm.inp : WordForm.Statement .inp := by unfold WordForm.Statement; decide

end Sys2Proof.Laws
end

