-- ==== Sys2Proof/Laws/Rau.lean ====
section
/-! SUPPORT. The digit arithmetic under the ring arithmetic unit: what a radix sum's digits are, and what sum a number's
digits make; and the plain values of the conversions. -/

namespace Sys2Proof.Machine

variable {c : RauConfig}

@[simp] theorem RingElem.zero_val : (RingElem.zero c).val = 0 := rfl

@[simp] theorem RingElem.max_val : (RingElem.max c).val = c.modulus - 1 := rfl

@[simp] theorem RingElem.reduce_val (n : Nat) : (RingElem.reduce c n).val = n % c.modulus := rfl

theorem RingElem.ofNat?_of_lt {n : Nat} (h : n < c.modulus) : RingElem.ofNat? c n = some ⟨n, h⟩ := by
  simp [RingElem.ofNat?, h]

theorem RingElem.ofNat?_of_ge {n : Nat} (h : c.modulus ≤ n) : RingElem.ofNat? c n = none := by
  simp [RingElem.ofNat?, Nat.not_lt.mpr h]

/-- A ring element fits its bus: no bit is lost (00_scope.md R6). -/
@[simp] theorem RingElem.toBus_toNat (x : RingElem c) : x.toBus.toNat = x.val := by
  simp [RingElem.toBus, Nat.mod_eq_of_lt (x.isLt.trans_le c.modulus_le)]

/-- What a bus carries that was driven by a ring element. -/
@[simp] theorem RingElem.ofBus?_toBus (x : RingElem c) : RingElem.ofBus? c x.toBus = some x := by
  simp [RingElem.ofBus?, RingElem.ofNat?]

@[simp] theorem Rau.digit_val (x : RingElem c) (i : Fin c.digits) :
    (Rau.digit x i).val = x.val / c.base ^ i.val % c.base := rfl

@[simp] theorem Rau.decompose_apply (x : RingElem c) (i : Fin c.digits) : Rau.decompose x i = Rau.digit x i := rfl

@[simp] theorem Rau.compose_val (d : DigitVec c) :
    (Rau.compose d).val = Rau.radixSum c.base c.digits (fun i => (d i).val) := rfl

@[simp] theorem Rau.subDigit_val (dx dy : Fin c.base) :
    (Rau.subDigit dx dy).val = (c.base + dx.val - dy.val) % c.base := rfl

/-- The digit of a radix sum at each position is the one it was made from. -/
theorem Rau.radixSum_digit {r : Nat} (hr : 0 < r) :
    ∀ (n : Nat) (d : Fin n → Nat), (∀ i, d i < r) → ∀ i : Fin n, Rau.radixSum r n d / r ^ i.val % r = d i
  | 0, _, _, i => i.elim0
  | n + 1, d, h, i => by
    have hlt := Rau.radixSum_lt hr n (fun j => d j.castSucc) (fun j => h _)
    simp only [Rau.radixSum]
    rcases Nat.lt_succ_iff_lt_or_eq.mp i.isLt with hi | hi
    · obtain ⟨j, rfl⟩ : ∃ j : Fin n, i = j.castSucc := ⟨⟨i.val, hi⟩, rfl⟩
      have hp : r ^ n = r ^ (n - j.val - 1) * r * r ^ j.val := by
        rw [← Nat.pow_succ, ← Nat.pow_add]; congr 1; have := j.isLt; omega
      simp only [Fin.val_castSucc]
      rw [hp, ← Nat.mul_assoc, Nat.add_mul_div_right _ _ (Nat.pow_pos hr), ← Nat.mul_assoc, Nat.add_mul_mod_self_right]
      exact Rau.radixSum_digit hr n (fun j => d j.castSucc) (fun j => h _) j
    · obtain rfl : i = Fin.last n := Fin.ext hi
      rw [Fin.val_last, Nat.add_mul_div_right _ _ (Nat.pow_pos hr), Nat.div_eq_of_lt hlt, Nat.zero_add,
        Nat.mod_eq_of_lt (h _)]

/-- The digits of `x` at the first `n` positions make `x mod r^n`. -/
theorem Rau.radixSum_of_digits (r x : Nat) :
    ∀ n : Nat, Rau.radixSum r n (fun i => x / r ^ i.val % r) = x % r ^ n
  | 0 => by simp [Rau.radixSum, Nat.mod_one]
  | n + 1 => by
    have ih := Rau.radixSum_of_digits r x n
    simp only [Rau.radixSum, Fin.val_castSucc, Fin.val_last, ih]
    rw [Nat.pow_succ, Nat.mod_mul]
    ring

/-- Two ring elements with the same digits are equal. -/
theorem Rau.ext_digits {x y : RingElem c} (h : ∀ i, Rau.digit x i = Rau.digit y i) : x = y := by
  have hx := Rau.radixSum_of_digits c.base x.val c.digits
  have hy := Rau.radixSum_of_digits c.base y.val c.digits
  rw [Nat.mod_eq_of_lt (show x.val < c.base ^ c.digits from x.isLt)] at hx
  rw [Nat.mod_eq_of_lt (show y.val < c.base ^ c.digits from y.isLt)] at hy
  refine Fin.ext (hx.symm.trans (Eq.trans ?_ hy))
  exact congrArg _ (funext fun i => congrArg Fin.val (h i))

/-- The digits of a recomposed vector are the vector. -/
@[simp] theorem Rau.digit_compose (d : DigitVec c) (i : Fin c.digits) : Rau.digit (Rau.compose d) i = d i :=
  Fin.ext (Rau.radixSum_digit c.base_pos _ _ (fun j => (d j).isLt) i)

end Sys2Proof.Machine
end

