-- ==== Sys2Proof/Laws/Step.lean ====
section
/-! SUPPORT. What a request does in each micro-state, once, and how several steps are run. -/

namespace Sys2Proof.Machine

variable {cfg : Config}

/-- A word decodes to an instruction only if the opcode map lists it, so it is that instruction's word. -/
theorem decode_instr {w : Nat} {i : Instr} (h : decode w = .instr i) : w = encode i := by
  unfold decode at h
  split at h
  · rename_i row hrow
    have hm := List.mem_of_find?_eq_some hrow
    have hv : row.1 = w := by simpa using List.find?_some hrow
    injection h with h
    subst h hv
    simp only [opcodeTable, List.mem_cons, List.not_mem_nil, or_false] at hm
    rcases hm with rfl | rfl | rfl | rfl | rfl | rfl | rfl | rfl <;> rfl
  · exact absurd h (by simp)

/-- A ready machine accepts the request and performs the step (41_execution_core.md R132, R143). -/
theorem step_ready {b : Block cfg} (h : b.Ready) :
    step ⟨cfg, b⟩ = State.runFetched ⟨cfg, b.accept⟩ := by
  simp [step, State.request, h.1, h.2]

/-- A terminal machine only acknowledges (41_execution_core.md R144). -/
theorem step_terminal {b : Block cfg} (hp : b.phase = .idle) (hs : b.status ≠ .running) :
    step ⟨cfg, b⟩ = .next ⟨cfg, b.accept⟩ := by
  simp [step, State.request, hp, hs, State.nextBlock]

/-- The latched word decides what runs (41_execution_core.md R135). -/
theorem State.runLatched_instr {s : State} {i : Instr} (h : decode s.block.ir.val = .instr i) :
    s.runLatched = exec i s := by
  simp [State.runLatched, h]

theorem State.runLatched_unmapped {s : State} (h : decode s.block.ir.val = .unmapped) :
    s.runLatched = execUnmapped s := by
  simp [State.runLatched, h]

/-- A meaning answers a next block of the same configuration. -/
theorem exec_answers (i : Instr) (b : Block cfg) : ∃ b' : Block cfg, exec i ⟨cfg, b⟩ = .next ⟨cfg, b'⟩ := by
  cases i <;> exact ⟨_, rfl⟩

/-- One more step at the front of a run, for any machine of the host's interface. -/
theorem run_succ (M : Host.Core) {s t : M.State} (n : Nat) (h : M.step s = .next t) : M.run (n + 1) s = M.run n t := by
  simp only [Host.Core.run, h]

/-- One more step at the front of a run of this machine. -/
theorem core_run_succ {s t : State} (n : Nat) (h : step s = .next t) :
    Host.Core.run Sys2Proof.core (n + 1) s = Host.Core.run Sys2Proof.core n t := run_succ Sys2Proof.core n h

/-- One more clock edge at the front. -/
theorem Block.ticks_succ {b b' : Block cfg} (n : Nat) (h : b.tick = .next b') :
    Block.ticks (n + 1) b = Block.ticks n b' := by
  simp [Block.ticks, h]

end Sys2Proof.Machine
end

