-- ==== Sys2Proof/Tests/Slice0.lean ====
section
/-! SUPPORT. Tests. Expected values come from 95_test_vectors.md, by its own identifiers, or from the rule a comment
names. The second half shows that the hypotheses of every obligation can be met together. -/

namespace Sys2Proof.Tests

open Sys2Proof.Machine

/-! ## Small states and what a test looks at -/

/-- A ring element of the canonical configuration. -/
def w (n : Nat) : Config.canonical.Elem := RingElem.reduce _ n

/-- A running, idle block with A, C, D and the listed memory words, the rest as after reset. -/
def block (a c d : Nat) (words : List (Nat × Nat)) : Block Config.canonical :=
  { Block.reset Config.canonical with
    a := w a, c := w c, d := w d, mem := words.foldl (fun m p => m.write (w p.1) (w p.2)) [] }

/-- Line up one sample of the input port. -/
def withIn (b : Block Config.canonical) (smp : Option InAnswer) : Block Config.canonical :=
  b.setChan { b.chan with inSamples := [smp] }

/-- Line up one sample of the output port. -/
def withOut (b : Block Config.canonical) (smp : Option OutAnswer) : Block Config.canonical :=
  b.setChan { b.chan with outSamples := [smp] }

/-- One step of a canonical block. -/
def stepped (b : Block Config.canonical) : Host.Outcome State Fault Refusal := step ⟨Config.canonical, b⟩

/-- A, C, D and TAG of a next state. -/
def regs : Host.Outcome State Fault Refusal → Option (Nat × Nat × Nat × Nat)
  | .next s => some (s.block.a.val, s.block.c.val, s.block.d.val, s.block.status.tag.toNat)
  | _ => none

/-- One memory word of a next state. -/
def word (addr : Nat) : Host.Outcome State Fault Refusal → Option Nat
  | .next s => some (s.block.mem.read (RingElem.reduce s.cfg.toRauConfig addr)).val
  | _ => none

/-- CAUSE of a next state, and the bytes written. -/
def causeAndWritten : Host.Outcome State Fault Refusal → Option (Nat × List Nat)
  | .next s => some (s.block.status.cause.toNat, s.block.chan.written.map (fun x => x.toNat))
  | _ => none

/-- STATUS of a next state stays `running` and the sequencer waits on a channel. -/
def waits : Host.Outcome State Fault Refusal → Bool
  | .next s => s.block.status.isRunning && (decide (s.block.phase = .inWait) || decide (s.block.phase = .outWait))
  | _ => false

/-! ## Checks before anything runs: each ill-formed term is refused -/

/-- 00_scope.md R6: B ≥ 2. -/
theorem test_base_one_refused : RauConfig.elaborate 1 10 16 = .error .baseTooSmall := by decide
/-- 00_scope.md R6: N ≥ 1. -/
theorem test_no_digits_refused : RauConfig.elaborate 3 0 16 = .error .noDigits := by decide
/-- 00_scope.md R6: 59048 does not fit in 15 bits. -/
theorem test_narrow_width_refused : RauConfig.elaborate 3 10 15 = .error .widthTooNarrow := by decide
/-- 00_scope.md R5: CAUSE_W ≥ 1. -/
theorem test_no_cause_refused : Config.elaborate 3 10 16 0 = .error .causeWidthZero := by decide
/-- 00_scope.md R7: END = 256 is an error for the CORE, and none for the RAU. -/
theorem test_end_256_refused : Config.elaborate 2 8 8 8 = .error .endBelow257 ∧
    RauConfig.elaborate 2 8 8 = .ok ⟨2, 8, 8, by decide, by decide, by decide⟩ := by decide
/-- 00_scope.md R7: END = 257 is the smallest the CORE accepts. -/
theorem test_end_257_accepted : Config.elaborate 257 1 9 1 =
    .ok ⟨⟨257, 1, 9, by decide, by decide, by decide⟩, 1, by decide, by decide⟩ := by decide
/-- 20_memory.md R61: a word above MAX makes an image ill-formed. -/
theorem test_image_word_refused : Config.canonical.imageWellFormed [33, 59049] = false := by decide
/-- 20_memory.md R60: an image holds at most END words. -/
theorem test_image_length_refused :
    Config.canonical.imageWellFormed (List.replicate 59050 0) = false := by
  rw [Config.imageWellFormed, List.length_replicate]
  rfl
/-- An instruction has no field that could be wrong (30_encoding.md R71). -/
theorem test_instructions_well_formed :
    [Instr.halt, .ldd, .rot, .jmp, .nop, .out, .sub, .inp].all Instr.wellFormed = true := by decide

/-! ## Decoding: each word written out bit by bit from the hex column of 30_encoding.md R72 -/

theorem test_decode_control : decode 0b0000000000100001 = .instr .halt ∧ decode 0b0000000001011110 = .instr .jmp ∧
    decode 0b0000000001011111 = .instr .nop := by decide
theorem test_decode_pointer : decode 0b0000000000101010 = .instr .ldd := by decide
theorem test_decode_arith : decode 0b0000000000111110 = .instr .rot ∧
    decode 0b0000000001111100 = .instr .sub := by decide
theorem test_decode_io : decode 0b0000000001111011 = .instr .out ∧ decode 0b0000000001111101 = .instr .inp := by decide
/-- 30_encoding.md R73: the low byte alone selects nothing (289 = 256 + 33), nor does a neighbour of an opcode. -/
theorem test_decode_unmapped : [0, 32, 34, 41, 43, 61, 63, 93, 96, 122, 126, 255, 256, 289, 39386, 59048].all
    (fun v => decide (decode v = .unmapped)) = true := by decide
theorem test_decode_table_word : decodeTableWord 16 33 = some .halt ∧ decodeTableWord 16 125 = some .inp ∧
    decodeTableWord 16 289 = none := by decide

/-! ## The ring arithmetic unit: 95_test_vectors.md sections 1 and 2.1 to 2.6 -/

theorem test_succ_pred : (Rau.succ (w 59048)).val = 0 ∧ (Rau.succ (w 59047)).val = 59048 ∧
    (Rau.pred (w 0)).val = 59048 ∧ (Rau.pred (w 59048)).val = 59047 := by decide
theorem test_add : (Rau.add (w 59048) (w 59048)).val = 59047 ∧ (Rau.add (w 30000) (w 30000)).val = 951 ∧
    (Rau.add (w 29524) (w 29525)).val = 0 ∧ (Rau.add (w 29524) (w 29524)).val = 59048 := by decide
theorem test_sub : (Rau.sub (w 0) (w 1)).val = 59048 ∧ (Rau.sub (w 100) (w 200)).val = 58949 ∧
    (Rau.sub (w 59048) (w 0)).val = 59048 ∧ (Rau.sub (w 1) (w 59048)).val = 2 := by decide
theorem test_rotr : (Rau.rotr (w 1)).val = 19683 ∧ (Rau.rotr (w 4)).val = 19684 ∧
    (Rau.rotr (w 59047)).val = 39365 ∧ (Rau.rotr (w 62)).val = 39386 := by decide
theorem test_dsub : (Rau.dsub (w 194) (w 52)).val = 178 ∧ (Rau.dsub (w 1) (w 59048)).val = 29525 ∧
    (Rau.dsub (w 100) (w 200)).val = 227 ∧ (Rau.dsub (w 65) (w 59048)).val = 29505 := by decide
theorem test_decompose : (List.finRange 10).map (fun i => (Rau.digit (w 194) i).val) =
    [2, 1, 0, 1, 2, 0, 0, 0, 0, 0] := by decide
theorem test_valid : Rau.isValid (c := Config.canonical.toRauConfig) 59048#16 = true ∧
    Rau.isValid (c := Config.canonical.toRauConfig) 59049#16 = false := by decide
/-- Section 2.5: `dig` for x = 62 is 2 at [1:0], 2 at [3:2], 0 at [5:4], 2 at [7:6], zeros above. -/
theorem test_digit_port : (Rau.digitBus (w 62)).toNat = 0b10001010 := by decide
/-- Section 2.1 at the ports: VALID answers 0 on 65535. -/
theorem test_valid_port : (Rau.ports (c := Config.canonical.toRauConfig) 0b110#3 65535#16 65535#16).r.toNat = 0 ∧
    (Rau.ports (c := Config.canonical.toRauConfig) 0b110#3 0#16 65535#16).r.toNat = 1 := by decide

/-- B = 10, N = 3 (section 2.6). -/
def decimal : RauConfig := ⟨10, 3, 10, by decide, by decide, by decide⟩

theorem test_decimal : (Rau.rotr (RingElem.reduce decimal 123)).val = 312 ∧
    (Rau.dsub (RingElem.reduce decimal 123) (RingElem.reduce decimal 456)).val = 777 ∧
    (Rau.add (RingElem.reduce decimal 999) (RingElem.reduce decimal 999)).val = 998 := by decide

/-- B = 2, N = 9, W = 9 (section 2.6). -/
def binary : RauConfig := ⟨2, 9, 9, by decide, by decide, by decide⟩

theorem test_binary : (Rau.rotr (RingElem.reduce binary 1)).val = 256 ∧
    (Rau.dsub (RingElem.reduce binary 341) (RingElem.reduce binary 409)).val = 204 ∧
    (Rau.sub (RingElem.reduce binary 0) (RingElem.reduce binary 1)).val = 511 := by decide

/-! ## Memory: the canonical form -/

/-- 20_memory.md R55; writing the reset value removes the entry. -/
theorem test_memory : (block 0 0 0 [(9, 5), (3, 7), (9, 6)]).mem = [(w 3, w 7), (w 9, w 6)] ∧
    (block 0 0 0 [(9, 5), (9, 0)]).mem = [] := by decide

/-! ## One step: 95_test_vectors.md section 2.7 -/

/-- V1. -/
theorem test_halt : regs (stepped (block 7 5 9 [(5, 33)])) = some (7, 5, 9, 1) := by decide
/-- V31. -/
theorem test_halted_step : regs (stepped ((block 7 5 9 [(5, 125)]).setStatus .haltedByHaltCommand)) =
    some (7, 5, 9, 1) := by decide
/-- V2, D = C. -/
theorem test_ldd_own_word : regs (stepped (block 0 0 0 [(0, 42)])) = some (0, 1, 43, 0) := by decide
/-- V3. -/
theorem test_ldd_wraps : regs (stepped (block 0 10 20 [(10, 42), (20, 59048)])) = some (0, 11, 0, 0) := by decide
/-- V5. -/
theorem test_rot : regs (stepped (block 555 1 43 [(1, 62), (43, 1)])) = some (19683, 2, 44, 0) ∧
    word 43 (stepped (block 555 1 43 [(1, 62), (43, 1)])) = some 19683 := by decide
/-- V6, D = C. -/
theorem test_rot_own_word : regs (stepped (block 0 0 0 [(0, 62)])) = some (39386, 1, 1, 0) ∧
    word 0 (stepped (block 0 0 0 [(0, 62)])) = some 39386 := by decide
/-- V10. -/
theorem test_jmp : regs (stepped (block 0 7 59048 [(7, 94), (59048, 99)])) = some (0, 100, 0, 0) := by decide
/-- V11. -/
theorem test_jmp_wraps : regs (stepped (block 0 7 8 [(7, 94), (8, 59048)])) = some (0, 0, 9, 0) := by decide
/-- V12. -/
theorem test_nop_wraps : regs (stepped (block 0 59048 59048 [(59048, 95)])) = some (0, 0, 0, 0) := by decide
/-- V13. -/
theorem test_sub_step : regs (stepped (block 19683 2 44 [(2, 124), (44, 1)])) = some (19685, 3, 45, 0) ∧
    word 44 (stepped (block 19683 2 44 [(2, 124), (44, 1)])) = some 19685 := by decide
/-- V14, D = C. -/
theorem test_sub_own_word : regs (stepped (block 0 0 0 [(0, 124)])) = some (239, 1, 1, 0) ∧
    word 0 (stepped (block 0 0 0 [(0, 124)])) = some 239 := by decide
/-- V18. -/
theorem test_unmapped : regs (stepped (block 4 2 3 [(2, 289)])) = some (4, 3, 4, 0) := by decide
/-- V23: the byte is 59047 mod 256 = 167. -/
theorem test_out : regs (stepped (withOut (block 59047 2 2 [(2, 123)]) (some .ok))) = some (59047, 3, 3, 0) ∧
    causeAndWritten (stepped (withOut (block 59047 2 2 [(2, 123)]) (some .ok))) = some (0, [167]) := by decide
/-- V21 and V25. -/
theorem test_out_stops : regs (stepped (block 59048 2 2 [(2, 123)])) = some (59048, 2, 2, 2) ∧
    regs (stepped (withOut (block 72 2 2 [(2, 123)]) (some (.failure 7)))) = some (72, 2, 2, 4) ∧
    causeAndWritten (stepped (withOut (block 72 2 2 [(2, 123)]) (some (.failure 7)))) = some (7, []) := by decide
/-- V28 and V29. -/
theorem test_in : regs (stepped (withIn (block 9 0 0 [(0, 125)]) (some (.byte 255#8)))) = some (255, 1, 1, 0) ∧
    regs (stepped (withIn (block 9 0 0 [(0, 125)]) (some .endOfStream))) = some (59048, 1, 1, 0) := by decide
/-- V30. -/
theorem test_in_fails : regs (stepped (withIn (block 9 0 0 [(0, 125)]) (some (.failure 3)))) = some (59048, 0, 0, 5) ∧
    causeAndWritten (stepped (withIn (block 9 0 0 [(0, 125)]) (some (.failure 3)))) = some (3, []) := by decide
/-- 43_io.md R182: a silent channel leaves the machine waiting. -/
theorem test_silent_channels : waits (stepped (withIn (block 9 0 0 [(0, 125)]) none)) = true ∧
    waits (stepped (withOut (block 9 0 0 [(0, 123)]) none)) = true := by decide

/-- Each word placed after reset runs first (log 6): the registers and the tag that 42_instructions.md gives at
A = C = D = 0. OUT and IN ask a channel, whose answer after reset is free. -/
theorem test_placed_words_run :
    [33, 42, 62, 94, 95, 124, 289].map (fun v => regs (step (State.reset.withFetchWord 16 v))) =
      [some (0, 0, 0, 1), some (0, 1, 43, 0), some (39386, 1, 1, 0), some (0, 95, 1, 0), some (0, 1, 1, 0),
        some (239, 1, 1, 0), some (0, 1, 1, 0)] := by decide
theorem test_placed_channel_words_run :
    step (State.reset.withFetchWord 16 123) = exec .out ⟨Config.canonical,
      { Block.reset Config.canonical with mem := [(w 0, w 123)], loadPhase := false, ir := w 123 }⟩ ∧
    step (State.reset.withFetchWord 16 125) = exec .inp ⟨Config.canonical,
      { Block.reset Config.canonical with mem := [(w 0, w 125)], loadPhase := false, ir := w 125 }⟩ := ⟨rfl, rfl⟩

/-! ## The hypotheses of every obligation can be met

One theorem for each obligation that has hypotheses, named after it; where it has several clauses, a state for each, at
a boundary value of its range. -/

/-- Every block of these tests has a canonical memory. -/
theorem block_wf (a c d : Nat) (words : List (Nat × Nat)) : (block a c d words).mem.wf := by
  have h : ∀ (l : List (Nat × Nat)) (m : Memory Config.canonical), m.wf →
      (l.foldl (fun m p => m.write (w p.1) (w p.2)) m).wf := by
    intro l
    induction l with
    | nil => exact fun m hm => hm
    | cons p l ih => exact fun m hm => ih _ (Memory.write_wf hm _ _)
  exact h words [] Memory.nil_wf

/-- The configurations the witnesses use beside the canonical one: B = 257, N = 1, and B = 2, N = 9 with W = 9. -/
def oneDigit : Config := ⟨⟨257, 1, 9, by decide, by decide, by decide⟩, 1, by decide, by decide⟩

/-- The step of a block has an answer, as one conjunct of a witness. -/
abbrev Steps (b b' : Block Config.canonical) : Prop :=
  step ⟨Config.canonical, b⟩ = .next ⟨Config.canonical, b'⟩

/-- A meaning has an answer, as one conjunct of a witness. -/
abbrev Executes (i : Instr) (b b' : Block Config.canonical) : Prop :=
  exec i ⟨Config.canonical, b⟩ = .next ⟨Config.canonical, b'⟩

theorem test_hyp_decode : 256 ≤ 256 ∧ decode (w 33).val = .instr .halt ∧ decode (w 59048).val = .unmapped := by decide

/-- Of the eight result statements: HALT, and LDD and JMP at MEM[D] = MAX, NOP at C = MAX, SUB at its corners. -/
theorem test_hyp_results :
    (block 7 5 9 [(5, 33)]).status = .running ∧
    (block 0 7 8 [(8, 59048)]).mem.read (block 0 7 8 [(8, 59048)]).d = RingElem.max _ ∧
    (block 0 59048 0 []).c = RingElem.max _ ∧
    (block 777 4 90 [(90, 777)]).a = (block 777 4 90 [(90, 777)]).mem.read (block 777 4 90 [(90, 777)]).d ∧
    (block 5 4 90 []).mem.read (block 5 4 90 []).d = RingElem.zero _ := by decide

theorem test_hyp_unmapped : (block 0 0 0 []).Ready ∧ (block 0 59048 3 [(59048, 289)]).Ready ∧
    (∀ i : Instr, ((block 0 0 0 []).mem.read (block 0 0 0 []).c).val ≠ encode i) ∧
    ∀ i : Instr, ((block 0 59048 3 [(59048, 289)]).mem.read (block 0 59048 3 [(59048, 289)]).c).val ≠ encode i :=
  ⟨by decide, by decide, fun i => by cases i <;> decide, fun i => by cases i <;> decide⟩

/-- OUT: A = MAX; A = MAX − 1 with Ok; A = 0 with a failure whose cause is wider than CAUSE_W. -/
theorem test_hyp_out : (block 59048 0 0 []).a = RingElem.max _ ∧
    ((withOut (block 59047 0 0 []) (some .ok)).a ≠ RingElem.max _ ∧
      (withOut (block 59047 0 0 []) (some .ok)).chan.outSample = some .ok) ∧
    (withOut (block 0 0 0 []) (some (.failure 256))).a ≠ RingElem.max _ ∧
    (withOut (block 0 0 0 []) (some (.failure 256))).chan.outSample = some (.failure 256) ∧
    (withOut (block 0 0 0 []) (some (.failure 256))).status = .running := by decide

theorem test_hyp_in : (withIn (block 9 0 0 []) (some (.byte 255#8))).chan.inSample = some (.byte 255#8) ∧
    (withIn (block 9 0 0 []) (some .endOfStream)).chan.inSample = some .endOfStream ∧
    (withIn (block 9 0 0 []) (some (.failure 0))).chan.inSample = some (.failure 0) ∧
    (withIn (block 9 0 0 []) (some (.failure 0))).status = .running := by decide

/-- A silent channel, and a machine found in each of the two waits. -/
theorem test_hyp_silent :
    ((withOut (block 0 0 0 []) none).status = .running ∧ (withOut (block 0 0 0 []) none).a ≠ RingElem.max _ ∧
      (withOut (block 0 0 0 []) none).chan.outSample = none) ∧
    (withIn (block 0 0 0 []) none).chan.inSample = none ∧
    (((block 59047 0 0 []).setPhase .outWait).phase = .outWait ∧ (block 59047 0 0 []).a ≠ RingElem.max _) ∧
    ((block 0 0 0 []).setPhase .inWait).phase = .inWait := by decide

theorem test_hyp_register_frame : ∃ b₁ b₂ b₃ b₄, Executes .halt (block 7 5 9 []) b₁ ∧
    Executes .ldd (block 7 5 9 [(9, 3)]) b₂ ∧ Executes .jmp (block 7 5 9 [(9, 3)]) b₃ ∧
    Executes .nop (block 7 5 9 []) b₄ := ⟨_, _, _, _, rfl, rfl, rfl, rfl⟩

theorem test_hyp_storing_frame : ∃ b₁ b₂, Executes .rot (block 7 5 9 [(9, 3)]) b₁ ∧
    Executes .sub (block 7 5 9 [(9, 3)]) b₂ ∧ (block 7 5 9 [(9, 3)]).mem.wf ∧ w 10 ≠ (block 7 5 9 [(9, 3)]).d :=
  ⟨_, _, rfl, rfl, block_wf _ _ _ _, by decide⟩

/-- The last clause: a terminal status, and a wait. -/
theorem test_hyp_channel_frame : ∃ b₁ b₂, Executes .out (block 59048 5 9 []) b₁ ∧ b₁.status ≠ .running ∧
    Executes .inp (withIn (block 7 5 9 []) none) b₂ ∧ b₂.phase ≠ .idle :=
  ⟨_, _, rfl, by decide, rfl, by decide⟩

/-- TransactionTakesOneSample: OUT at A = MAX, OUT below it, and IN. -/
theorem test_hyp_one_sample : ∃ b₁ b₂ b₃, Executes .out (block 59048 5 9 []) b₁ ∧
    (block 59048 5 9 []).a = RingElem.max _ ∧ Executes .out (withOut (block 59047 5 9 []) (some .ok)) b₂ ∧
    (withOut (block 59047 5 9 []) (some .ok)).a ≠ RingElem.max _ ∧
    Executes .inp (withIn (block 7 5 9 []) (some .endOfStream)) b₃ :=
  ⟨_, _, _, rfl, by decide, rfl, by decide, rfl⟩

theorem test_hyp_decoded_step : (block 1 5 9 [(5, 62)]).Ready ∧
    decode ((block 1 5 9 [(5, 62)]).mem.read (block 1 5 9 [(5, 62)]).c).val = .instr .rot := by decide

/-- A terminal status, of each of the four kinds that are entered. -/
theorem test_hyp_terminal :
    [Status.haltedByHaltCommand, .haltedByEofWrite, .writeError 255#8, .readError 0#8].all (fun st =>
      decide (((block 7 5 9 [(5, 125)]).setStatus st).phase = .idle) &&
        decide (((block 7 5 9 [(5, 125)]).setStatus st).status ≠ .running)) = true ∧
    (((block 7 5 9 [(5, 125)]).setStatus .haltedByEofWrite).setLoadPhase false).loadPhase = false := by decide

/-- Of the statements on a step from IDLE: a step that ends in each terminal status, for StatusFollowsTheTransitionTable
and TerminalEventsArePrecise. -/
theorem test_hyp_terminal_events : ∃ b₁ b₂ b₃ b₄,
    Steps (block 7 5 9 [(5, 33)]) b₁ ∧ b₁.status ≠ .running ∧
    Steps (block 59048 5 9 [(5, 123)]) b₂ ∧ b₂.status ≠ .running ∧
    Steps (withOut (block 7 5 9 [(5, 123)]) (some (.failure 1))) b₃ ∧ b₃.status ≠ .running ∧
    Steps (withIn (block 7 5 9 [(5, 125)]) (some (.failure 1))) b₄ ∧ b₄.status ≠ .running ∧
    (withIn (block 7 5 9 [(5, 125)]) (some (.failure 1))).Ready :=
  ⟨_, _, _, _, rfl, by decide, rfl, by decide, rfl, by decide, rfl, by decide, by decide⟩

/-- RunningStepAdvancesCAndD: JMP, LDD and another. -/
theorem test_hyp_advance : ∃ b₁ b₂ b₃,
    (block 0 7 8 [(7, 94), (8, 59048)]).Ready ∧ Steps (block 0 7 8 [(7, 94), (8, 59048)]) b₁ ∧ b₁.Ready ∧
    Steps (block 0 7 8 [(7, 42), (8, 59048)]) b₂ ∧ b₂.Ready ∧ Steps (block 0 59048 59048 []) b₃ ∧ b₃.Ready :=
  ⟨_, _, _, by decide, rfl, by decide, rfl, by decide, rfl, by decide⟩

theorem test_hyp_equal_c_d : ∃ b', (block 0 5 5 [(5, 62)]).Ready ∧ (block 0 5 5 [(5, 62)]).c = (block 0 5 5 [(5, 62)]).d ∧
    decode ((block 0 5 5 [(5, 62)]).mem.read (block 0 5 5 [(5, 62)]).c).val ≠ .instr .ldd ∧
    decode ((block 0 5 5 [(5, 62)]).mem.read (block 0 5 5 [(5, 62)]).c).val ≠ .instr .jmp ∧
    Steps (block 0 5 5 [(5, 62)]) b' := ⟨_, by decide, by decide, by decide, by decide, rfl⟩

theorem test_hyp_never_no_io_loop : ∃ b' b'' : Block Config.canonical, (block 0 0 0 []).status ≠ .noIoInfiniteLoop ∧
    Steps (block 0 0 0 []) b' ∧ (block 0 0 0 []).edge { PinsIn.low Config.canonical with stepReq := true } = .next b'' :=
  ⟨_, _, by decide, rfl, rfl⟩

theorem test_hyp_one_word_one_channel : ∃ b', (withOut (block 65 5 9 [(5, 123)]) (some .ok)).Ready ∧
    Steps (withOut (block 65 5 9 [(5, 123)]) (some .ok)) b' ∧ b'.chan.written = [65#8] :=
  ⟨_, by decide, rfl, by decide⟩

/-- InstructionsOnTheirOwnWord: one state for each of the four words. -/
theorem test_hyp_own_word : [42, 94, 62, 124].all (fun v =>
      decide ((block 1 6 6 [(6, v)]).Ready) &&
        decide ((block 1 6 6 [(6, v)]).d = (block 1 6 6 [(6, v)]).c) &&
        decide (((block 1 6 6 [(6, v)]).mem.read (block 1 6 6 [(6, v)]).c).val = v)) = true ∧
    (∀ v, (block 1 6 6 [(6, v)]).mem.wf) ∧ ∃ b', Steps (block 1 6 6 [(6, 124)]) b' :=
  ⟨by decide, fun _ => block_wf _ _ _ _, _, rfl⟩

/-- HiddenStateIsNotObservable: two blocks that differ in all the hidden state left out. -/
theorem test_hyp_hidden : ∃ b₂ b₁' b₂' : Block Config.canonical, (block 1 6 9 [(6, 62)]).phase = .idle ∧
    b₂.phase = .idle ∧ (block 1 6 9 [(6, 62)]).SameVisible b₂ ∧ (block 1 6 9 [(6, 62)]) ≠ b₂ ∧
    Steps (block 1 6 9 [(6, 62)]) b₁' ∧ Steps b₂ b₂' :=
  ⟨{ block 1 6 9 [(6, 62)] with loadPhase := false, ir := w 33, mdr := w 5 }, _, _, rfl, rfl, ⟨rfl, rfl, rfl, rfl, rfl, rfl⟩,
    fun h => absurd (congrArg Block.loadPhase h) (by decide), rfl, rfl⟩

theorem test_hyp_unmapped_memory : (Block.reset Config.canonical).Ready ∧
    ∀ addr, decode ((Block.reset Config.canonical).mem.read addr).val = .unmapped := ⟨by decide, fun _ => rfl⟩

/-- The invariant holds beside reset: a machine halted by `!`, one waiting on the input channel, and one in CLEAR. -/
theorem test_hyp_legal : ((block 7 5 9 [(5, 33)]).setStatus .haltedByHaltCommand).setLoadPhase false |>.Legal :=
  ⟨block_wf 7 5 9 [(5, 33)], show _ = _ from rfl, trivial, fun h => absurd h (by decide)⟩
theorem test_hyp_legal_waiting : ((block 7 5 9 [(5, 125)]).setPhase .inWait).setLoadPhase false |>.Legal :=
  ⟨block_wf 7 5 9 [(5, 125)], trivial, show _ ∧ _ from ⟨rfl, rfl⟩, fun h => absurd h (by decide)⟩
theorem test_hyp_legal_clearing : ((block 7 5 9 [(5, 125)]).setPhase (.clear (w 6))).Legal :=
  ⟨block_wf 7 5 9 [(5, 125)], trivial, show _ ∧ _ from ⟨rfl, rfl⟩, fun _ => ⟨rfl, trivial⟩⟩
theorem test_hyp_legal_moves : ∃ b' b'' : Block Config.canonical,
    Steps (((block 7 5 9 [(5, 33)]).setStatus .haltedByHaltCommand).setLoadPhase false) b' ∧
    ((block 7 5 9 [(5, 125)]).setPhase (.clear (w 6))).edge (PinsIn.low _) = .next b'' := ⟨_, _, rfl, rfl⟩

theorem test_hyp_reset_edge : ((block 7 5 9 [(5, 33)]).setPhase .execWrite).mem.wf ∧
    ({ PinsIn.low Config.canonical with rst := true } : PinsIn Config.canonical).rst = true ∧
    0 < Config.canonical.toRauConfig.modulus :=
  ⟨block_wf 7 5 9 [(5, 33)], by decide⟩

theorem test_hyp_clock_edges : ∀ v, ((block 7 5 9 [(5, 124)]).setPhase .execWrite).phase ≠ .clear v := by
  intro v h
  cases h

/-- StepTakesTheCyclesOfTheTable: ROT (5), IN answered at once (5), OUT with A = MAX (4), an unmapped word (4). -/
theorem test_hyp_cycles : ∃ b₁ b₂ b₃ b₄,
    (block 0 5 9 [(5, 62)]).Ready ∧ Steps (block 0 5 9 [(5, 62)]) b₁ ∧
    (withIn (block 0 5 9 [(5, 125)]) (some .endOfStream)).chan.inSample ≠ none ∧
    Steps (withIn (block 0 5 9 [(5, 125)]) (some .endOfStream)) b₂ ∧
    (block 59048 5 9 [(5, 123)]).a = RingElem.max _ ∧ Steps (block 59048 5 9 [(5, 123)]) b₃ ∧
    Steps (block 0 5 9 []) b₄ ∧ 1 ≤ 4 ∧ 4 < 5 :=
  ⟨_, _, _, _, by decide, rfl, by decide, rfl, by decide, rfl, rfl, by decide, by decide⟩

/-- StepRequestHandshake: in IDLE running and terminal, while busy, and at `step_ack`. -/
theorem test_hyp_handshake :
    ({ PinsIn.low Config.canonical with stepReq := true } : PinsIn Config.canonical).ldWe = false ∧
    ({ PinsIn.low Config.canonical with stepReq := true } : PinsIn Config.canonical).rst = false ∧
    (block 0 0 0 []).phase = .idle ∧ ((block 0 0 0 []).setPhase .fetch).pins.busy = true ∧
    (((block 0 0 0 []).setStatus .haltedByEofWrite).setPhase .advance).pins.stepAck = true ∧
    (((block 0 0 0 []).setStatus .haltedByEofWrite).setPhase .advance).status ≠ .running := by decide

/-- The load port driven with a selector, an address and a value. -/
def loadPins (sel : BitVec 2) (addr data : Nat) : PinsIn Config.canonical :=
  { PinsIn.low Config.canonical with
    ldWe := true, ldSel := sel, ldAddr := BitVec.ofNat _ addr, ldData := BitVec.ofNat _ data }

/-- LoadPortWritesTheSelectedTarget: the port closed, each selector at MAX, and each breach at END, the address also for a
register. -/
theorem test_hyp_load_port : (loadPins 0#2 59048 59048).rst = false ∧ (loadPins 0#2 59048 59048).ldWe = true ∧
    (loadPins 0#2 59048 59048).stepReq = false ∧ ((block 0 0 0 []).setLoadPhase false).loadPhase = false ∧
    (block 0 0 0 []).loadPhase = true ∧ (loadPins 0#2 59048 59048).ldAddr = (w 59048).toBus ∧
    [1#2, 2#2, 3#2].all (fun sel => decide ((loadPins sel 59048 59048).ldSel = sel) &&
      decide ((loadPins sel 59048 59048).ldAddr = (w 59048).toBus) &&
      decide ((loadPins sel 59048 59048).ldData = (w 59048).toBus)) = true ∧
    Config.canonical.toRauConfig.modulus ≤ (loadPins 1#2 0 59049).ldData.toNat ∧
    Config.canonical.toRauConfig.modulus ≤ (loadPins 0#2 59049 0).ldAddr.toNat ∧
    Config.canonical.toRauConfig.modulus ≤ (loadPins 1#2 59049 0).ldAddr.toNat := by decide

/-- 20_memory.md R60, R61: a preload of A at address MAX is taken, and one at address END is refused. -/
theorem test_load_register : (block 0 0 0 []).edge (loadPins 1#2 59048 7) = .next (block 7 0 0 []) ∧
    (block 0 0 0 []).edge (loadPins 1#2 59049 7) = .refused .loadNotRingElement := ⟨rfl, rfl⟩

theorem test_hyp_loaded_image : (block 0 0 0 []).loadPhase = true ∧ (block 0 0 0 []).phase = .idle ∧
    (block 0 0 0 []).mem.wf ∧ [33, 59048].length ≤ Config.canonical.toRauConfig.modulus ∧
    ∀ v ∈ [33, 59048], v < Config.canonical.toRauConfig.modulus :=
  ⟨rfl, rfl, block_wf _ _ _ _, by decide, by decide⟩

/-- ChannelPinsHandshake: each answer at the pins, in its wait. -/
theorem test_hyp_channel_pins : ((block 59047 0 0 []).setPhase .outWait).phase = .outWait ∧
    ((block 0 0 0 []).setPhase .inWait).phase = .inWait ∧ (PinsIn.low Config.canonical).rst = false ∧
    (PinsIn.low Config.canonical).outValid = false ∧ (PinsIn.low Config.canonical).inValid = false ∧
    ((PinsIn.low Config.canonical).withOut (some .ok)).outFail = false ∧
    ((PinsIn.low Config.canonical).withOut (some (.failure 1))).outFail = true ∧
    ((PinsIn.low Config.canonical).withIn (some (.byte 0#8))).inKind = 0#2 ∧
    ((PinsIn.low Config.canonical).withIn (some .endOfStream)).inKind = 1#2 ∧
    ((PinsIn.low Config.canonical).withIn (some (.failure 1))).inKind = 2#2 ∧
    ({ PinsIn.low Config.canonical with inValid := true, inKind := 3#2 } : PinsIn Config.canonical).inKind = 3#2 ∧
    ({ PinsIn.low Config.canonical with inValid := true, inKind := 3#2 } : PinsIn Config.canonical).inValid = true := by
  decide

/-- StatusWordAndDebugPort: a status that carries no cause, one that does, and an idle block. -/
theorem test_hyp_status_word : (∀ k, (block 0 0 0 []).status ≠ .writeError k) ∧
    (∀ k, (block 0 0 0 []).status ≠ .readError k) ∧ (block 0 0 0 []).phase = .idle ∧
    (Status.readError (cfg := Config.canonical) 255#8).word.toNat = 0xFF05 :=
  ⟨fun _ => nofun, fun _ => nofun, by decide, by decide⟩

/-- ElaborationAcceptsLegalParameters: the canonical values meet the right-hand sides. -/
theorem test_hyp_elaboration : 2 ≤ 3 ∧ 1 ≤ 10 ∧ 3 ^ 10 - 1 < 2 ^ 16 ∧ 1 ≤ 8 ∧ 257 ≤ 3 ^ 10 := by decide

/-- ReadReturnsTheMostRecentWrite and CanonicalMemoriesAreEqualByReads: a memory in the form, built in two orders. -/
theorem test_hyp_memory : (block 0 0 0 [(3, 7), (9, 5)]).mem.wf ∧ (block 0 0 0 [(9, 5), (3, 7)]).mem.wf ∧
    ∀ addr, (block 0 0 0 [(3, 7), (9, 5)]).mem.read addr = (block 0 0 0 [(9, 5), (3, 7)]).mem.read addr :=
  ⟨block_wf _ _ _ _, block_wf _ _ _ _, fun _ => rfl⟩

/-- The RAU statements: a digit vector with the right sum, N = 1, the operands of the source's vectors, the ring element
1, an index below N, B = 2, and W = k·N. -/
theorem test_hyp_ring_unit : (RingElem.zero binary).val = ∑ i : Fin binary.digits, (0 : Nat) * binary.base ^ i.val ∧
    oneDigit.toRauConfig.digits = 1 ∧ (w 194).val = 194 ∧ (w 52).val = 52 ∧ (w 0).val = 0 ∧ (w 1).val = 1 ∧
    (0 < 9 ∧ 9 < Config.canonical.digits) ∧ binary.base = 2 ^ 1 ∧ binary.width = 1 * binary.digits ∧
    (0b110#3 : BitVec 3) ≠ 0b111#3 ∧
    ∀ i j : Fin Config.canonical.digits, Rau.digit (w 29524) i = Rau.digit (w 29524) j := by
  refine ⟨by simp [RingElem.zero], by decide⟩

end Sys2Proof.Tests
end

section
/-! PROOFS. Elaboration (00_scope.md R5, R6, R7): it answers with an instance exactly where the instance carries the
parameters asked for, and an instance that carries them exists exactly where they are legal. -/

namespace Sys2Proof

/-- An RAU carries the proof that its own parameters pass the checks of R6, so elaboration gives it back from them. -/
theorem RauConfig.elaborate_eq_ok_iff {base digits width : Nat} {c : RauConfig} :
    RauConfig.elaborate base digits width = .ok c ↔ c.base = base ∧ c.digits = digits ∧ c.width = width := by
  constructor
  · intro h
    unfold RauConfig.elaborate at h
    split_ifs at h
    cases h
    exact ⟨rfl, rfl, rfl⟩
  · rintro ⟨rfl, rfl, rfl⟩
    simp [RauConfig.elaborate, c.base_ge_two, c.digits_ge_one, c.width_fits]

/-- The whole block adds the checks of CAUSE_W (R5) and of END (R7), and its configuration carries their proofs too. -/
theorem Config.elaborate_eq_ok_iff {base digits width causeWidth : Nat} {cfg : Config} :
    Config.elaborate base digits width causeWidth = .ok cfg ↔
      cfg.base = base ∧ cfg.digits = digits ∧ cfg.width = width ∧ cfg.causeWidth = causeWidth := by
  constructor
  · intro h
    unfold Config.elaborate at h
    split at h
    case h_1 => cases h
    case h_2 hrau =>
      obtain ⟨hbase, hdigits, hwidth⟩ := RauConfig.elaborate_eq_ok_iff.mp hrau
      split_ifs at h
      cases h
      exact ⟨hbase, hdigits, hwidth, rfl⟩
  · rintro ⟨rfl, rfl, rfl, rfl⟩
    have hrau : RauConfig.elaborate cfg.base cfg.digits cfg.width = .ok cfg.toRauConfig :=
      RauConfig.elaborate_eq_ok_iff.mpr ⟨rfl, rfl, rfl⟩
    simp [Config.elaborate, hrau, cfg.causeWidth_ge_one, cfg.end_ge_257]

/-- R6 asks that the word holds MAX; the configuration records that it holds END values. -/
theorem pow_sub_one_lt_two_pow_iff {base digits width : Nat} :
    base ^ digits - 1 < 2 ^ width ↔ base ^ digits ≤ 2 ^ width := by
  have hpos : 0 < 2 ^ width := Nat.two_pow_pos width
  omega

theorem RauConfig.exists_with_parameters_iff {base digits width : Nat} :
    (∃ c : RauConfig, c.base = base ∧ c.digits = digits ∧ c.width = width) ↔
      2 ≤ base ∧ 1 ≤ digits ∧ base ^ digits - 1 < 2 ^ width := by
  rw [pow_sub_one_lt_two_pow_iff]
  constructor
  · rintro ⟨c, rfl, rfl, rfl⟩
    exact ⟨c.base_ge_two, c.digits_ge_one, c.width_fits⟩
  · rintro ⟨hbase, hdigits, hwidth⟩
    exact ⟨⟨base, digits, width, hbase, hdigits, hwidth⟩, rfl, rfl, rfl⟩

theorem Config.exists_with_parameters_iff {base digits width causeWidth : Nat} :
    (∃ cfg : Config, cfg.base = base ∧ cfg.digits = digits ∧ cfg.width = width ∧ cfg.causeWidth = causeWidth) ↔
      2 ≤ base ∧ 1 ≤ digits ∧ base ^ digits - 1 < 2 ^ width ∧ 1 ≤ causeWidth ∧ 257 ≤ base ^ digits := by
  rw [pow_sub_one_lt_two_pow_iff]
  constructor
  · rintro ⟨cfg, rfl, rfl, rfl, rfl⟩
    exact ⟨cfg.base_ge_two, cfg.digits_ge_one, cfg.width_fits, cfg.causeWidth_ge_one, cfg.end_ge_257⟩
  · rintro ⟨hbase, hdigits, hwidth, hcause, hend⟩
    exact ⟨⟨⟨base, digits, width, hbase, hdigits, hwidth⟩, causeWidth, hcause, hend⟩, rfl, rfl, rfl, rfl⟩

/-- Settles O42: both elaborations reduce to the existence of an instance with the parameters asked for. -/
theorem elaborationAcceptsLegalParameters : Obligations.ElaborationAcceptsLegalParameters := by
  intro base digits width causeWidth
  rw [← RauConfig.exists_with_parameters_iff, ← Config.exists_with_parameters_iff]
  constructor
  · refine exists_congr fun c => ?_
    rw [RauConfig.elaborate_eq_ok_iff, and_self]
  · refine exists_congr fun cfg => ?_
    rw [Config.elaborate_eq_ok_iff, and_self]

end Sys2Proof
end

section
/-! PROOFS. The state (10_state.md): what STATUS shows as a register word and at the debug port, when two memories are
equal data, the values after reset, what a terminal status keeps over any number of steps, when C and D stay equal, and
that the hidden state makes no difference to a step. -/

namespace Sys2Proof.Machine

variable {cfg : Config}

/-! ## STATUS as a register word -/

/-- The layout of R29 as arithmetic: TAG below 2^8, CAUSE above. -/
theorem Status.word_toNat (st : Status cfg) : st.word.toNat = st.cause.toNat * 256 + st.tag.toNat := by
  have htag : st.tag.toNat < 2 ^ 8 := st.tag.isLt.trans (by decide)
  rw [Status.word, BitVec.toNat_append, BitVec.toNat_append, Nat.shiftLeft_eq, BitVec.toNat_ofNat, Nat.zero_mod,
    Nat.zero_shiftLeft, Nat.zero_or, Nat.mul_comm, Nat.two_pow_add_eq_or_of_lt htag]

/-- Only the two error values carry a cause (R32). -/
theorem Status.cause_eq_zero {st : Status cfg} (hw : ∀ k, st ≠ .writeError k) (hr : ∀ k, st ≠ .readError k) :
    st.cause = 0#cfg.causeWidth := by
  cases st with
  | writeError k => exact absurd rfl (hw k)
  | readError k => exact absurd rfl (hr k)
  | _ => rfl

theorem Status.tag_eq_zero_iff {st : Status cfg} : st.tag = 0#3 ↔ st = .running := by
  cases st <;> simp [Status.tag]

/-- Settles O41: the register word is CAUSE · 256 + TAG, and the debug port in IDLE is its definition at an address that a
bus can carry. -/
theorem statusWordAndDebugPort : Obligations.StatusWordAndDebugPort := by
  intro cfg b
  refine ⟨?_, Status.cause_eq_zero, Status.tag_eq_zero_iff, fun hidle addr => ?_⟩
  · have hword := b.status.word_toNat
    have htag : b.status.tag.toNat < 8 := b.status.tag.isLt
    omega
  · simp [Block.debug, hidle]

/-! ## Canonical memories -/

/-- The cells of a canonical memory are exactly its reads that differ from the reset contents. -/
theorem Memory.mem_iff_read {m : Memory cfg} (hm : m.wf) (a v : cfg.Elem) :
    (a, v) ∈ m ↔ m.read a = v ∧ v ≠ Memory.unlisted cfg := by
  induction m with
  | nil => simpa using fun h => h.symm
  | cons p m ih =>
    obtain ⟨k, w⟩ := p
    obtain ⟨hsorted, hlisted⟩ := hm
    obtain ⟨hhead, htail⟩ := List.pairwise_cons.mp hsorted
    obtain ⟨hw, hrest⟩ := List.forall_mem_cons.mp hlisted
    rw [List.mem_cons, Memory.read_cons, Prod.mk.injEq]
    by_cases hk : k = a
    · subst hk
      have hnot : (k, v) ∉ m := fun h => lt_irrefl k (hhead _ h)
      rw [if_pos rfl]
      constructor
      · rintro (⟨-, rfl⟩ | h)
        · exact ⟨rfl, hw⟩
        · exact absurd h hnot
      · rintro ⟨rfl, -⟩
        exact .inl ⟨rfl, rfl⟩
    · rw [if_neg hk, ← ih ⟨htail, hrest⟩, or_iff_right fun h => hk h.1.symm]

theorem Memory.nodup_of_wf {m : Memory cfg} (hm : m.wf) : m.Nodup :=
  hm.1.imp fun hlt heq => hlt.ne (congrArg Prod.fst heq)

/-- Settles O44: by their reads the two memories list the same cells, and a list that rises strictly is fixed by what it
lists. -/
theorem canonicalMemoriesAreEqualByReads : Obligations.CanonicalMemoriesAreEqualByReads := by
  intro cfg m m' hm hm' hread
  have hcells : ∀ p, p ∈ m ↔ p ∈ m' := fun ⟨a, v⟩ => by
    rw [Memory.mem_iff_read hm, Memory.mem_iff_read hm', hread]
  have hperm : m.Perm m' :=
    (List.perm_ext_iff_of_nodup (Memory.nodup_of_wf hm) (Memory.nodup_of_wf hm')).mpr hcells
  exact hperm.eq_of_pairwise (fun _ _ _ _ hab hba => absurd hab hba.asymm) hm.1 hm'.1

/-! ## Reset -/

/-- Settles O32: memory is empty, STATUS is running, and the sequencer is in IDLE, where LOADPHASE may be 1. -/
theorem resetBlockIsLegal : Obligations.ResetBlockIsLegal := fun _ =>
  { mem := Memory.nil_wf, status := trivial, phase := trivial, load := fun _ => ⟨rfl, trivial⟩ }

/-- Settles O33: each value is the one the definition of the reset block gives. -/
theorem resetValues : Obligations.ResetValues := by
  refine ⟨fun cfg => ⟨rfl, rfl, rfl, fun _ => rfl, rfl, rfl, rfl, rfl⟩, rfl, rfl, rfl, ?_⟩
  decide

/-! ## A terminal status -/

/-- Settles O19, by induction on the steps: each request is only accepted, which clears LOADPHASE. -/
theorem terminalStatusIsAbsorbing : Obligations.TerminalStatusIsAbsorbing := by
  intro cfg b n hidle hterminal
  induction n generalizing b with
  | zero => exact core_run_succ 0 (step_terminal hidle hterminal)
  | succ n ih => exact (core_run_succ (n + 1) (step_terminal hidle hterminal)).trans (ih b.accept hidle hterminal)

/-! ## A step of a ready machine, by the word at C -/

/-- R132, R135: the word at C runs, once the request is accepted and the word latched. -/
theorem step_ready_fetched {b : Block cfg} (h : b.Ready) :
    step ⟨cfg, b⟩ = State.runLatched ⟨cfg, b.accept.fetch⟩ := step_ready h

/-- OUT with A = MAX makes no transaction (43_io.md R183). -/
theorem exec_out_max {b : Block cfg} (h : b.aIsMax = true) :
    exec .out ⟨cfg, b⟩ = .next ⟨cfg, b.outEofWork.finish⟩ := by
  simp [exec, execOut, State.nextBlock, h]

/-- OUT with A below MAX asks the channel (43_io.md R183). -/
theorem exec_out_await {b : Block cfg} (h : ¬b.aIsMax = true) :
    exec .out ⟨cfg, b⟩ = .next ⟨cfg, b.awaitOut⟩ := by
  simp [exec, execOut, State.nextBlock, h]

/-! ## C and D -/

@[simp] theorem Block.outAnswered_c (b : Block cfg) (ans : OutAnswer) : (b.outAnswered ans).c = b.c := by
  cases ans <;> rfl
@[simp] theorem Block.outAnswered_d (b : Block cfg) (ans : OutAnswer) : (b.outAnswered ans).d = b.d := by
  cases ans <;> rfl
@[simp] theorem Block.inAnswered_c (b : Block cfg) (ans : InAnswer) : (b.inAnswered ans).c = b.c := by
  cases ans <;> rfl
@[simp] theorem Block.inAnswered_d (b : Block cfg) (ans : InAnswer) : (b.inAnswered ans).d = b.d := by
  cases ans <;> rfl

/-- The end of a step moves C and D alike (R136, R137). -/
theorem Block.finish_c_eq_d {b : Block cfg} (h : b.c = b.d) : b.finish.c = b.finish.d := by
  rw [Block.finish_c, Block.finish_d, h]

theorem Block.awaitOut_c_eq_d {b : Block cfg} (h : b.c = b.d) : b.awaitOut.c = b.awaitOut.d := by
  cases hs : b.chan.outSample with
  | none => rw [Block.awaitOut_silent hs]; exact h
  | some ans => rw [Block.awaitOut_answered hs]; exact Block.finish_c_eq_d (by simpa using h)

theorem Block.awaitIn_c_eq_d {b : Block cfg} (h : b.c = b.d) : b.awaitIn.c = b.awaitIn.d := by
  cases hs : b.chan.inSample with
  | none => rw [Block.awaitIn_silent hs]; exact h
  | some ans => rw [Block.awaitIn_answered hs]; exact Block.finish_c_eq_d (by simpa using h)

/-- Only LDD writes D and only JMP writes C during execute, so every other instruction keeps them equal. -/
theorem exec_c_eq_d {i : Instr} (hldd : i ≠ .ldd) (hjmp : i ≠ .jmp) {b b' : Block cfg} (h : b.c = b.d)
    (hb : exec i ⟨cfg, b⟩ = .next ⟨cfg, b'⟩) : b'.c = b'.d := by
  cases i with
  | ldd => exact absurd rfl hldd
  | jmp => exact absurd rfl hjmp
  | halt | rot | nop | sub => cases hb; exact Block.finish_c_eq_d h
  | out =>
    by_cases hmax : b.aIsMax = true
    · rw [exec_out_max hmax] at hb
      cases hb
      exact Block.finish_c_eq_d h
    · rw [exec_out_await hmax] at hb
      cases hb
      exact Block.awaitOut_c_eq_d h
  | inp => cases hb; exact Block.awaitIn_c_eq_d h

/-- Settles O24, by what the word at C decodes to. -/
theorem cAndDStayEqual : Obligations.CAndDStayEqual := by
  intro cfg b b' hready hcd hldd hjmp hstep
  rw [step_ready_fetched hready] at hstep
  cases hdec : decode (b.mem.read b.c).val with
  | instr i =>
    rw [State.runLatched_instr hdec] at hstep
    exact exec_c_eq_d (fun h => hldd (h ▸ hdec)) (fun h => hjmp (h ▸ hdec)) (b := b.accept.fetch) hcd hstep
  | unmapped =>
    rw [State.runLatched_unmapped hdec] at hstep
    cases hstep
    exact Block.finish_c_eq_d hcd

/-! ## The hidden state

A request clears LOADPHASE and the fetch writes IR, so of two machines that agree in all that is visible only MDR can
still differ once the word is latched. An instruction that uses MDR writes it first. -/

theorem Block.finish_setMdr (b : Block cfg) (v : cfg.Elem) : (b.setMdr v).finish = b.finish.setMdr v := by
  by_cases h : b.status = .running
  · rw [Block.finish_running h, Block.finish_running (b := b.setMdr v) h]; rfl
  · rw [Block.finish_stopped h, Block.finish_stopped (b := b.setMdr v) h]; rfl

theorem Block.awaitOut_setMdr (b : Block cfg) (v : cfg.Elem) : (b.setMdr v).awaitOut = b.awaitOut.setMdr v := by
  cases hs : b.chan.outSample with
  | none => rw [Block.awaitOut_silent hs, Block.awaitOut_silent (b := b.setMdr v) hs]; rfl
  | some ans =>
    rw [Block.awaitOut_answered hs, Block.awaitOut_answered (b := b.setMdr v) hs, ← Block.finish_setMdr]
    cases ans <;> rfl

theorem Block.awaitIn_setMdr (b : Block cfg) (v : cfg.Elem) : (b.setMdr v).awaitIn = b.awaitIn.setMdr v := by
  cases hs : b.chan.inSample with
  | none => rw [Block.awaitIn_silent hs, Block.awaitIn_silent (b := b.setMdr v) hs]; rfl
  | some ans =>
    rw [Block.awaitIn_answered hs, Block.awaitIn_answered (b := b.setMdr v) hs, ← Block.finish_setMdr]
    cases ans <;> rfl

/-- Both outcomes are next blocks, equal in all but MDR. -/
def AgreeUpToMdr (cfg : Config) (o₁ o₂ : Host.Outcome State Fault Refusal) : Prop :=
  ∃ (b : Block cfg) (v : cfg.Elem), o₁ = .next ⟨cfg, b⟩ ∧ o₂ = .next ⟨cfg, b.setMdr v⟩

theorem AgreeUpToMdr.refl (b : Block cfg) : AgreeUpToMdr cfg (.next ⟨cfg, b⟩) (.next ⟨cfg, b⟩) := ⟨b, b.mdr, rfl, rfl⟩

theorem AgreeUpToMdr.of_eq_setMdr {b₁ b₂ : Block cfg} {v : cfg.Elem} (h : b₂ = b₁.setMdr v) :
    AgreeUpToMdr cfg (.next ⟨cfg, b₁⟩) (.next ⟨cfg, b₂⟩) := ⟨b₁, v, rfl, by rw [h]⟩

/-- MDR is neither architectural nor the micro-state (10_state.md R34). -/
theorem AgreeUpToMdr.sameVisible {b₁ b₂ : Block cfg} (h : AgreeUpToMdr cfg (.next ⟨cfg, b₁⟩) (.next ⟨cfg, b₂⟩)) :
    b₁.SameVisible b₂ ∧ b₁.phase = b₂.phase := by
  obtain ⟨b, v, h₁, h₂⟩ := h
  cases h₁
  cases h₂
  exact ⟨⟨rfl, rfl, rfl, rfl, rfl, rfl⟩, rfl⟩

/-- What MDR held before an instruction shows in nothing but MDR after it: LDD, ROT, JMP and SUB write it before they use
it, and the others carry it along. -/
theorem exec_setMdr (i : Instr) (b : Block cfg) (v : cfg.Elem) :
    AgreeUpToMdr cfg (exec i ⟨cfg, b⟩) (exec i ⟨cfg, b.setMdr v⟩) := by
  cases i with
  | ldd | rot | jmp | sub => exact AgreeUpToMdr.refl _
  | halt => exact .of_eq_setMdr (Block.finish_setMdr b.haltWork v)
  | nop => exact .of_eq_setMdr (Block.finish_setMdr b v)
  | inp => exact .of_eq_setMdr (Block.awaitIn_setMdr b v)
  | out =>
    by_cases hmax : b.aIsMax = true
    · rw [exec_out_max hmax, exec_out_max (b := b.setMdr v) hmax]
      exact .of_eq_setMdr (Block.finish_setMdr b.outEofWork v)
    · rw [exec_out_await hmax, exec_out_await (b := b.setMdr v) hmax]
      exact .of_eq_setMdr (Block.awaitOut_setMdr b v)

theorem State.runLatched_setMdr (b : Block cfg) (v : cfg.Elem) :
    AgreeUpToMdr cfg (State.runLatched ⟨cfg, b⟩) (State.runLatched ⟨cfg, b.setMdr v⟩) := by
  cases hdec : decode b.ir.val with
  | instr i =>
    rw [State.runLatched_instr hdec, State.runLatched_instr (s := ⟨cfg, b.setMdr v⟩) hdec]
    exact exec_setMdr i b v
  | unmapped =>
    rw [State.runLatched_unmapped hdec, State.runLatched_unmapped (s := ⟨cfg, b.setMdr v⟩) hdec]
    exact AgreeUpToMdr.of_eq_setMdr (Block.finish_setMdr b v)

theorem Block.SameVisible.status_eq {b₁ b₂ : Block cfg} (h : b₁.SameVisible b₂) : b₁.status = b₂.status := by
  obtain ⟨-, -, -, -, hstatus, -⟩ := h
  exact hstatus

/-- Once a request is accepted and the word latched, machines that looked alike differ in MDR alone. -/
theorem Block.SameVisible.accept_fetch {b₁ b₂ : Block cfg} (h : b₁.SameVisible b₂) (hp : b₁.phase = b₂.phase) :
    b₂.accept.fetch = b₁.accept.fetch.setMdr b₂.mdr := by
  obtain ⟨ha, hc, hd, hm, hs, hch⟩ := h
  cases b₁
  cases b₂
  subst ha hc hd hm hs hch hp
  rfl

/-- Settles O28: a running pair differs only in MDR when its word runs; a terminal pair is only accepted. -/
theorem hiddenStateIsNotObservable : Obligations.HiddenStateIsNotObservable := by
  intro cfg b₁ b₂ b₁' b₂' hidle₁ hidle₂ hvis hstep₁ hstep₂
  have hstatus : b₁.status = b₂.status := hvis.status_eq
  by_cases hrun : b₁.status = .running
  · rw [step_ready_fetched ⟨hidle₁, hrun⟩] at hstep₁
    rw [step_ready_fetched ⟨hidle₂, hstatus ▸ hrun⟩, hvis.accept_fetch (hidle₁.trans hidle₂.symm)] at hstep₂
    have hagree := State.runLatched_setMdr b₁.accept.fetch b₂.mdr
    rw [hstep₁, hstep₂] at hagree
    exact hagree.sameVisible
  · rw [step_terminal hidle₁ hrun] at hstep₁
    rw [step_terminal hidle₂ (hstatus ▸ hrun)] at hstep₂
    cases hstep₁
    cases hstep₂
    exact ⟨hvis, hidle₁.trans hidle₂.symm⟩

end Sys2Proof.Machine
end

section
/-! PROOFS. The memory (20_memory.md): what a read returns after a list of writes, what the loader leaves at each address,
and what one cycle of the load port does. -/

namespace Sys2Proof.Machine

variable {cfg : Config}

/-! ## Reads after writes -/

theorem Memory.read_write {m : Memory cfg} (hm : m.wf) (a v a' : cfg.Elem) :
    (m.write a v).read a' = if a = a' then v else m.read a' := by
  by_cases h : a = a'
  · subst h
    rw [Memory.read_write_same hm, if_pos rfl]
  · rw [Memory.read_write_other m v (Ne.symm h), if_neg h]

/-- A list of writes keeps the canonical form. -/
theorem Memory.foldl_write_wf {m : Memory cfg} (hm : m.wf) (ws : List (cfg.Elem × cfg.Elem)) :
    (ws.foldl (fun m' w => m'.write w.1 w.2) m).wf :=
  ws.foldlRecOn _ hm fun _ hm' w _ => Memory.write_wf hm' w.1 w.2

/-- Settles O43, by induction on the writes from the last one back: it is the one read, or it does not touch the
address. -/
theorem readReturnsTheMostRecentWrite : Obligations.ReadReturnsTheMostRecentWrite := by
  intro cfg m ws addr hm
  induction ws using List.reverseRecOn with
  | nil => rfl
  | append_singleton ws w ih =>
    rw [List.foldl_concat, Memory.read_write (Memory.foldl_write_wf hm ws), ih, List.reverse_concat]
    by_cases h : w.1 = addr
    · simp [h]
    · simp [h]

/-! ## The loader -/

/-- The loader's first write, where the address and the word are ring elements. -/
theorem Memory.writeFrom_cons (m : Memory cfg) {start w : Nat} (hs : start < cfg.toRauConfig.modulus)
    (hw : w < cfg.toRauConfig.modulus) (ws : List Nat) :
    m.writeFrom start (w :: ws) = (m.write ⟨start, hs⟩ ⟨w, hw⟩).writeFrom (start + 1) ws := by
  rw [Memory.writeFrom, RingElem.ofNat?_of_lt hs, RingElem.ofNat?_of_lt hw]

/-- Words written from `start` on leave the ones below `start`, and the ones past the last, as they were. -/
theorem Memory.read_writeFrom {m : Memory cfg} (hm : m.wf) {start : Nat} {image : List Nat}
    (hfits : start + image.length ≤ cfg.toRauConfig.modulus) (hwords : ∀ w ∈ image, w < cfg.toRauConfig.modulus)
    (addr : cfg.Elem) :
    ((m.writeFrom start image).read addr).val =
      if addr.val < start then (m.read addr).val else image.getD (addr.val - start) (m.read addr).val := by
  induction image generalizing m start with
  | nil => simp [Memory.writeFrom]
  | cons w ws ih =>
    obtain ⟨hw, hws⟩ := List.forall_mem_cons.mp hwords
    rw [List.length_cons] at hfits
    have hs : start < cfg.toRauConfig.modulus := by omega
    rw [Memory.writeFrom_cons m hs hw, ih (Memory.write_wf hm _ _) (by omega) hws, Memory.read_write hm]
    rcases lt_trichotomy addr.val start with hlt | heq | hgt
    · have hne : ⟨start, hs⟩ ≠ addr := fun h => hlt.ne (congrArg Fin.val h).symm
      rw [if_pos (by omega), if_pos hlt, if_neg hne]
    · have haddr : ⟨start, hs⟩ = addr := Fin.ext heq.symm
      simp [heq, haddr]
    · have hne : ⟨start, hs⟩ ≠ addr := fun h => hgt.ne (congrArg Fin.val h)
      have hindex : addr.val - start = addr.val - (start + 1) + 1 := by omega
      rw [if_neg (by omega), if_neg hne, if_neg hgt.not_gt, hindex, List.getD_cons_succ]

theorem Block.loadOpen_eq_true {b : Block cfg} (hload : b.loadPhase = true) (hidle : b.phase = .idle) :
    b.loadOpen = true := by
  simp [Block.loadOpen, hload, hidle]

/-- The loader takes a well-formed image in the load phase (R60). -/
theorem State.loadImage_taken {b : Block cfg} {image : List Nat} (hopen : b.loadOpen = true)
    (hlen : image.length ≤ cfg.toRauConfig.modulus) (hwords : ∀ w ∈ image, w < cfg.toRauConfig.modulus) :
    State.loadImage ⟨cfg, b⟩ image = .next ⟨cfg, b.setMem (b.mem.writeFrom 0 image)⟩ := by
  have hwf : cfg.imageWellFormed image = true := by
    simpa [Config.imageWellFormed] using And.intro hlen hwords
  simp [State.loadImage, hopen, hwf, State.nextBlock]

/-- Settles O39: the image written from address 0. -/
theorem loadedImageIsReadBack : Obligations.LoadedImageIsReadBack := by
  intro cfg b image hload hidle hm hlen hwords
  refine ⟨b.mem.writeFrom 0 image, State.loadImage_taken (Block.loadOpen_eq_true hload hidle) hlen hwords,
    Memory.writeFrom_wf hm 0 image, fun addr => ?_⟩
  simpa using Memory.read_writeFrom hm (start := 0) (by omega) hwords addr

/-! ## The load port -/

theorem RingElem.ofBus?_of_ge {c : RauConfig} {v : BitVec c.width} (h : c.modulus ≤ v.toNat) :
    RingElem.ofBus? c v = none := RingElem.ofNat?_of_ge h

/-- Outside the load phase nothing on the port counts (R60; log 10). -/
theorem Block.loadCycle_closed {b : Block cfg} (h : b.loadPhase = false) (sel : BitVec 2)
    (addr data : BitVec cfg.width) : b.loadCycle sel addr data = .next b := by
  simp [Block.loadCycle, Block.loadOpen, h]

theorem Block.loadCycle_taken {b : Block cfg} (hopen : b.loadOpen = true) (sel : BitVec 2) (addr v : cfg.Elem) :
    b.loadCycle sel addr.toBus v.toBus = .next (b.loadTo (loadTarget sel addr) v) := by
  simp [Block.loadCycle, hopen]

/-- Data above MAX is refused, whatever the address and the selector (R61). -/
theorem Block.loadCycle_data_refused {b : Block cfg} (hopen : b.loadOpen = true) (sel : BitVec 2)
    (addr : BitVec cfg.width) {data : BitVec cfg.width} (h : cfg.toRauConfig.modulus ≤ data.toNat) :
    b.loadCycle sel addr data = .refused .loadNotRingElement := by
  simp [Block.loadCycle, hopen, RingElem.ofBus?_of_ge h]

/-- An address above MAX is refused, whatever the data and the selector (R61). -/
theorem Block.loadCycle_addr_refused {b : Block cfg} (hopen : b.loadOpen = true) (sel : BitVec 2)
    {addr : BitVec cfg.width} (data : BitVec cfg.width) (h : cfg.toRauConfig.modulus ≤ addr.toNat) :
    b.loadCycle sel addr data = .refused .loadNotRingElement := by
  simp [Block.loadCycle, hopen, RingElem.ofBus?_of_ge h]

/-- An edge in IDLE with no step request is the load port's cycle alone. -/
theorem Block.edge_load {b : Block cfg} {p : PinsIn cfg} (hrst : p.rst = false) (hwe : p.ldWe = true)
    (hreq : p.stepReq = false) (hidle : b.phase = .idle) : b.edge p = b.loadCycle p.ldSel p.ldAddr p.ldData := by
  simp only [Block.edge, hrst, hidle, Block.idleEdge, Block.loadEdge, hwe, hreq]
  cases b.loadCycle p.ldSel p.ldAddr p.ldData <;> rfl

/-- Settles O38: the edge is one cycle of the port, which is closed, takes the data to the target, or refuses. -/
theorem loadPortWritesTheSelectedTarget : Obligations.LoadPortWritesTheSelectedTarget := by
  intro cfg b p hrst hwe hreq hidle
  rw [Block.edge_load hrst hwe hreq hidle]
  refine ⟨fun hload => Block.loadCycle_closed hload .., fun hload addr v haddr hdata => ?_,
    fun hload => Block.loadCycle_data_refused (Block.loadOpen_eq_true hload hidle) _ _,
    fun hload => Block.loadCycle_addr_refused (Block.loadOpen_eq_true hload hidle) _ _⟩
  rw [haddr, hdata, Block.loadCycle_taken (Block.loadOpen_eq_true hload hidle)]
  refine ⟨?_, ?_, ?_, ?_⟩ <;> (intro hsel; rw [hsel]; rfl)

end Sys2Proof.Machine
end

section
/-! PROOFS. The decoder (30_encoding.md R72, R73): `decode` and `encode` are inverse, and every word that encodes no
instruction is unmapped. -/

namespace Sys2Proof

/-- The opcode map finds every instruction at its word (R72). -/
@[simp] theorem decode_encode (i : Instr) : decode (encode i) = .instr i := by
  cases i <;> decide

/-- A decoding selects one of the eight instructions or is UNMAPPED (R74), so it selects none exactly where UNMAPPED. -/
theorem Decoded.eq_unmapped_iff (d : Decoded) : d = .unmapped ↔ ∀ i : Instr, d ≠ .instr i := by
  cases d with
  | instr i => exact ⟨nofun, fun h => absurd rfl (h i)⟩
  | unmapped => exact ⟨fun _ => nofun, fun _ => rfl⟩

/-- Only an exact match of the whole word selects an instruction (R73). -/
theorem decode_eq_instr_iff {w : Nat} {i : Instr} : decode w = .instr i ↔ w = encode i :=
  ⟨Machine.decode_instr, fun h => h ▸ decode_encode i⟩

/-- A word is unmapped exactly where it encodes no instruction (R73). -/
theorem decode_eq_unmapped_iff {w : Nat} : decode w = .unmapped ↔ ∀ i : Instr, w ≠ encode i := by
  simp only [Decoded.eq_unmapped_iff, ne_eq, decode_eq_instr_iff]

/-- No instruction's word reaches 256, so the word is not cut to its low byte (R73). -/
theorem decode_eq_unmapped_of_ge {w : Nat} (h : 256 ≤ w) : decode w = .unmapped :=
  decode_eq_unmapped_iff.mpr fun i => ((encode_lt i).trans_le h).ne'

/-- A memory word is compared with the instruction's memory word by value. -/
theorem eq_encodeWord_iff {cfg : Config} {x : cfg.Elem} {i : Instr} : x = encodeWord cfg i ↔ x.val = encode i :=
  Fin.ext_iff

/-- Settles O1, from the exact match of a word, for numbers and for memory words. -/
theorem decodeMatchesExactlyTheEncodedWord : Obligations.DecodeMatchesExactlyTheEncodedWord :=
  ⟨fun _ _ => decode_eq_instr_iff, fun _ => decode_eq_unmapped_iff, fun _ => decode_eq_unmapped_of_ge,
    fun _ _ _ => decode_eq_instr_iff.trans eq_encodeWord_iff.symm⟩

/-- Settles O2: the eight words are the instructions' encodings; 289 (V18) and 39386 (V19) are past a byte. -/
theorem opcodeMapWordsDecode : Obligations.OpcodeMapWordsDecode :=
  ⟨decode_encode .halt, decode_encode .ldd, decode_encode .rot, decode_encode .jmp, decode_encode .nop,
    decode_encode .out, decode_encode .sub, decode_encode .inp,
    decode_eq_unmapped_of_ge (by decide), decode_eq_unmapped_of_ge (by decide)⟩

end Sys2Proof
end

section
/-! PROOFS. The ring arithmetic unit (40_ring_unit.md): digits and their weighted sum, the operations modulo END, the
digit rotation, the digit subtraction, the laws of R103 to R105, and the unit at its ports. -/

namespace Sys2Proof.Machine

variable {c : RauConfig}

/-! ## Digits -/

/-- The multiply-accumulate is the weighted sum (R93). -/
theorem Rau.radixSum_eq_sum (r : Nat) : ∀ (n : Nat) (d : Fin n → Nat),
    Rau.radixSum r n d = ∑ i : Fin n, d i * r ^ i.val
  | 0, _ => by simp [Rau.radixSum]
  | n + 1, d => by simp [Rau.radixSum, Fin.sum_univ_castSucc, Rau.radixSum_eq_sum r n]

theorem Rau.compose_val_eq_sum (d : DigitVec c) :
    (Rau.compose d).val = ∑ i : Fin c.digits, (d i).val * c.base ^ i.val := Rau.radixSum_eq_sum ..

@[simp] theorem Rau.compose_decompose (x : RingElem c) : Rau.compose (Rau.decompose x) = x :=
  Rau.ext_digits fun i => Rau.digit_compose _ i

@[simp] theorem Rau.decompose_compose (d : DigitVec c) : Rau.decompose (Rau.compose d) = d :=
  funext fun i => Rau.digit_compose d i

/-- Settles O47: both ways by the digits of a recomposed vector. -/
theorem composeAndDecomposeAreInverse : Obligations.ComposeAndDecomposeAreInverse := fun _ =>
  ⟨Rau.compose_decompose, Rau.decompose_compose⟩

/-- Settles O45: a digit vector with the sum `x` composes to `x`, so it is what `x` decomposes to. -/
theorem digitsAreUnique : Obligations.DigitsAreUnique := by
  intro c x
  refine ⟨?_, fun _ => rfl, fun d hd => ?_⟩
  · calc x.val = (Rau.compose (Rau.decompose x)).val := by rw [Rau.compose_decompose]
      _ = _ := Rau.compose_val_eq_sum _
  · have hx : x = Rau.compose d := Fin.ext (hd.trans (Rau.compose_val_eq_sum d).symm)
    rw [hx, Rau.decompose_compose]

theorem RingElem.val_le_max (x : RingElem c) : x.val ≤ (RingElem.max c).val := Nat.le_sub_one_of_lt x.isLt

/-- The weighted digits at any set of positions make no more than the whole sum, which is a ring element. -/
theorem Rau.sum_digits_le_max (d : DigitVec c) (s : Finset (Fin c.digits)) :
    ∑ i ∈ s, (d i).val * c.base ^ i.val ≤ (RingElem.max c).val :=
  calc ∑ i ∈ s, (d i).val * c.base ^ i.val
      ≤ ∑ i, (d i).val * c.base ^ i.val := Finset.sum_le_sum_of_subset s.subset_univ
    _ = (Rau.compose d).val := (Rau.compose_val_eq_sum d).symm
    _ ≤ (RingElem.max c).val := RingElem.val_le_max _

/-- Settles O46: a product is the sum over one position, and a partial sum is one over the positions below `k`. -/
theorem composeIsTheWeightedSum : Obligations.ComposeIsTheWeightedSum := by
  intro c d
  refine ⟨Rau.compose_val_eq_sum d, fun i => ?_, fun k => Rau.sum_digits_le_max d _⟩
  simpa using Rau.sum_digits_le_max d {i}

/-! ## The operations modulo END -/

/-- Below 2·END one conditional subtraction is the whole reduction (R99). -/
theorem RingElem.reduce_val_of_lt_two_mul {n : Nat} (h : n < 2 * c.modulus) :
    (RingElem.reduce c n).val = if c.modulus ≤ n then n - c.modulus else n := by
  rw [RingElem.reduce_val]
  split_ifs with hn
  · rw [Nat.mod_eq_sub_mod hn, Nat.mod_eq_of_lt (by omega)]
  · exact Nat.mod_eq_of_lt (Nat.lt_of_not_le hn)

/-- END − k stands for −k. -/
theorem RingElem.reduce_val_add_modulus_sub (n : Nat) {k : Nat} (h : k ≤ c.modulus) :
    ((RingElem.reduce c (n + (c.modulus - k))).val : Int) = ((n : Int) - (k : Int)) % (c.modulus : Int) := by
  have hsum : ((n + (c.modulus - k) : Nat) : Int) = (n : Int) - (k : Int) + (c.modulus : Int) := by omega
  rw [RingElem.reduce_val, Int.natCast_mod, hsum, Int.add_emod_right]

theorem Rau.succ_val (x : RingElem c) : (Rau.succ x).val = if x = RingElem.max c then 0 else x.val + 1 := by
  have hx := x.isLt
  rw [Rau.succ, RingElem.reduce_val_of_lt_two_mul (by omega)]
  simp only [Fin.ext_iff, RingElem.max_val]
  split_ifs <;> omega

theorem Rau.pred_val (x : RingElem c) :
    (Rau.pred x).val = if x.val = 0 then (RingElem.max c).val else x.val - 1 := by
  have hx := x.isLt
  rw [Rau.pred, RingElem.reduce_val_of_lt_two_mul (by omega), RingElem.max_val]
  split_ifs <;> omega

theorem Rau.add_val (x y : RingElem c) :
    (Rau.add x y).val = if c.modulus ≤ x.val + y.val then x.val + y.val - c.modulus else x.val + y.val :=
  RingElem.reduce_val_of_lt_two_mul (by omega)

theorem Rau.add_comm (x y : RingElem c) : Rau.add x y = Rau.add y x := by rw [Rau.add, Rau.add, Nat.add_comm]

theorem Rau.sub_val (x y : RingElem c) :
    (Rau.sub x y).val = if y.val ≤ x.val then x.val - y.val else x.val + (c.modulus - y.val) := by
  have hx := x.isLt
  have hy := y.isLt
  rw [Rau.sub, RingElem.reduce_val_of_lt_two_mul (by omega)]
  split_ifs <;> omega

/-- Settles O48: below 2·END the reduction is the branch, and END − 1 stands for −1. -/
theorem succAndPredWrap : Obligations.SuccAndPredWrap := by
  refine ⟨by decide, by decide, fun c x => ⟨rfl, Rau.succ_val x, ?_, Rau.pred_val x⟩⟩
  exact RingElem.reduce_val_add_modulus_sub x.val c.modulus_pos

/-- Settles O49: with `y` ≠ 0, `x` reaches END − `y` exactly where the sum reaches END. -/
theorem addIsExactModuloEnd : Obligations.AddIsExactModuloEnd := by
  refine ⟨by decide, fun c x y => ⟨rfl, Rau.add_val x y, ?_⟩⟩
  have hx := x.isLt
  have hy := y.isLt
  rw [Rau.add_val]
  split_ifs <;> omega

/-- Settles O50: END − `y` stands for −`y`. -/
theorem subIsExactModuloEnd : Obligations.SubIsExactModuloEnd := by
  refine ⟨by decide, fun c x y => ⟨?_, Rau.sub_val x y⟩⟩
  exact RingElem.reduce_val_add_modulus_sub x.val y.isLt.le

/-! ## The digit rotation -/

/-- A rotation brings to each position the digit from one place up, the positions taken cyclically. -/
theorem Rau.digit_rotr (x : RingElem c) (i : Fin c.digits) :
    Rau.digit (Rau.rotr x) i = Rau.digit x ⟨(i.val + 1) % c.digits, Nat.mod_lt _ c.digits_ge_one⟩ := by
  rw [Rau.rotr, Rau.digit_compose, Rau.rotateDigits]
  split_ifs with h
  · simp only [Nat.mod_eq_of_lt h, Rau.decompose_apply]
  · have hlast : i.val + 1 = c.digits := by omega
    simp only [hlast, Nat.mod_self, Rau.decompose_apply]

theorem Rau.digit_rotr_of_lt (x : RingElem c) (i : Fin c.digits) (h : i.val + 1 < c.digits) :
    Rau.digit (Rau.rotr x) i = Rau.digit x ⟨i.val + 1, h⟩ := by
  simp only [Rau.digit_rotr, Nat.mod_eq_of_lt h]

theorem Rau.digit_rotr_last (x : RingElem c) (i : Fin c.digits) (h : i.val + 1 = c.digits) :
    Rau.digit (Rau.rotr x) i = Rau.digit x ⟨0, c.digits_ge_one⟩ := by
  simp only [Rau.digit_rotr, h, Nat.mod_self]

theorem Rau.digit_rotr_last_val (x : RingElem c) (i : Fin c.digits) (h : i.val + 1 = c.digits) :
    (Rau.digit (Rau.rotr x) i).val = x.val % c.base := by
  rw [Rau.digit_rotr_last x i h, Rau.digit_val, Nat.pow_zero, Nat.div_one]

/-- `k` rotations bring to each position the digit from `k` places up. -/
theorem Rau.digit_iterate_rotr (k : Nat) (x : RingElem c) (i : Fin c.digits) :
    Rau.digit (Rau.rotr^[k] x) i = Rau.digit x ⟨(i.val + k) % c.digits, Nat.mod_lt _ c.digits_ge_one⟩ := by
  induction k generalizing x with
  | zero => simp [Nat.mod_eq_of_lt i.isLt]
  | succ k ih =>
    rw [Function.iterate_succ_apply, ih, Rau.digit_rotr]
    simp only [Nat.mod_add_mod, Nat.add_assoc]

/-- N rotations bring every digit back (R103 (i)). -/
theorem Rau.iterate_rotr_digits (x : RingElem c) : Rau.rotr^[c.digits] x = x :=
  Rau.ext_digits fun i => by
    simp only [Rau.digit_iterate_rotr, Nat.add_mod_right, Nat.mod_eq_of_lt i.isLt]

/-- The sum with its last position written apart. -/
theorem Rau.radixSum_eq_add_last (r : Nat) {n : Nat} (hn : 1 ≤ n) (d : Fin n → Nat) :
    Rau.radixSum r n d =
      Rau.radixSum r (n - 1) (fun i => d ⟨i.val, by omega⟩) + d ⟨n - 1, by omega⟩ * r ^ (n - 1) := by
  obtain ⟨m, rfl⟩ : ∃ m, n = m + 1 := ⟨n - 1, by omega⟩
  rfl

/-- The closed form of R101: the digits above digit 0 are those of x div B. -/
theorem Rau.rotr_val (x : RingElem c) :
    (Rau.rotr x).val = x.val % c.base * c.base ^ (c.digits - 1) + x.val / c.base := by
  have hpos := c.digits_ge_one
  have hlow : x.val / c.base < c.base ^ (c.digits - 1) := by
    rw [Nat.div_lt_iff_lt_mul c.base_pos, ← Nat.pow_succ, Nat.succ_eq_add_one, Nat.sub_add_cancel hpos]
    exact x.isLt
  have hshift : (fun i : Fin (c.digits - 1) => (Rau.digit (Rau.rotr x) ⟨i.val, by omega⟩).val) =
      fun i => x.val / c.base / c.base ^ i.val % c.base := by
    funext i
    rw [Rau.digit_rotr_of_lt x _ (by simp only; omega), Rau.digit_val, Nat.div_div_eq_div_mul, Nat.pow_succ']
  have hlast : (Rau.digit (Rau.rotr x) ⟨c.digits - 1, by omega⟩).val = x.val % c.base :=
    Rau.digit_rotr_last_val x _ (Nat.sub_add_cancel hpos)
  rw [← Rau.compose_decompose (Rau.rotr x), Rau.compose_val, Rau.radixSum_eq_add_last _ hpos]
  simp only [Rau.decompose_apply]
  rw [hshift, hlast, Rau.radixSum_of_digits, Nat.mod_eq_of_lt hlow, Nat.add_comm]

theorem Rau.rotr_of_digits_eq {x : RingElem c} (h : ∀ i j, Rau.digit x i = Rau.digit x j) : Rau.rotr x = x :=
  Rau.ext_digits fun i => by rw [Rau.digit_rotr]; exact h _ _

@[simp] theorem Rau.digit_zero (i : Fin c.digits) : Rau.digit (RingElem.zero c) i = ⟨0, c.base_pos⟩ :=
  Fin.ext (by simp)

/-- The largest digit, B − 1. -/
def Rau.topDigit (c : RauConfig) : Fin c.base := ⟨c.base - 1, Nat.sub_lt c.base_pos Nat.one_pos⟩

theorem Rau.val_le_topDigit (e : Fin c.base) : e.val ≤ (Rau.topDigit c).val := Nat.le_sub_one_of_lt e.isLt

/-- No digit vector makes more than the one whose digits are all B − 1, so that one makes MAX. -/
theorem Rau.digit_max (i : Fin c.digits) : Rau.digit (RingElem.max c) i = Rau.topDigit c := by
  have hle : (RingElem.max c).val ≤ (Rau.compose fun _ : Fin c.digits => Rau.topDigit c).val := by
    rw [← Rau.compose_decompose (RingElem.max c), Rau.compose_val_eq_sum, Rau.compose_val_eq_sum]
    exact Finset.sum_le_sum fun j _ => Nat.mul_le_mul_right _ (Rau.val_le_topDigit _)
  rw [Fin.ext (hle.antisymm (RingElem.val_le_max _)), Rau.digit_compose]

theorem Rau.rotr_zero : Rau.rotr (RingElem.zero c) = RingElem.zero c :=
  Rau.rotr_of_digits_eq fun i j => by rw [Rau.digit_zero, Rau.digit_zero]

theorem Rau.rotr_max : Rau.rotr (RingElem.max c) = RingElem.max c :=
  Rau.rotr_of_digits_eq fun i j => by rw [Rau.digit_max, Rau.digit_max]

/-- Settles O51. With N = 1 there is one digit, so all digits are the same. -/
theorem rotrRotatesTheDigits : Obligations.RotrRotatesTheDigits := by
  refine ⟨by decide, fun c x => ⟨Rau.rotr_val x, Rau.digit_rotr_of_lt x, Rau.digit_rotr_last_val x, fun h => ?_,
    Rau.rotr_of_digits_eq, Rau.rotr_zero, Rau.rotr_max⟩⟩
  have hone : ∀ i j : Fin c.digits, i = j := fun i j => Fin.ext (by omega)
  exact Rau.rotr_of_digits_eq fun i j => congrArg _ (hone i j)

/-- N − 1 further rotations undo a rotation, on either side. -/
theorem Rau.rotr_bijective : Function.Bijective (Rau.rotr (c := c)) := by
  have hid : Rau.rotr^[c.digits] = (id : RingElem c → RingElem c) := funext Rau.iterate_rotr_digits
  refine Function.bijective_iff_has_inverse.mpr ⟨Rau.rotr^[c.digits.pred], fun x => ?_, fun x => ?_⟩
  · exact congrFun ((Function.iterate_pred_comp_of_pos Rau.rotr c.digits_ge_one).trans hid) x
  · exact congrFun ((Function.comp_iterate_pred_of_pos Rau.rotr c.digits_ge_one).trans hid) x

theorem Rau.digit_one_val {one : RingElem c} (h : one.val = 1) (i : Fin c.digits) :
    (Rau.digit one i).val = if i.val = 0 then 1 else 0 := by
  have hb := c.base_ge_two
  rw [Rau.digit_val, h]
  split_ifs with hi
  · rw [hi, Nat.pow_zero, Nat.div_one, Nat.mod_eq_of_lt hb]
  · rw [Nat.div_eq_of_lt (Nat.one_lt_pow hi hb), Nat.zero_mod]

/-- Settles O55. After `k` rotations of 1, 0 < `k` < N, the digit 1 stands at position N − `k`, where 1 has a 0. -/
theorem rotrHasOrderExactlyN : Obligations.RotrHasOrderExactlyN := by
  intro c
  refine ⟨Rau.iterate_rotr_digits, fun one hone k hpos hlt heq => ?_,
    fun x => Function.IsPeriodicPt.minimalPeriod_dvd (Rau.iterate_rotr_digits x), Rau.rotr_zero, Rau.rotr_max⟩
  have hmoved := Rau.digit_iterate_rotr k one ⟨c.digits - k, by omega⟩
  simp only [heq, Nat.sub_add_cancel hlt.le, Nat.mod_self] at hmoved
  have hval := congrArg Fin.val hmoved
  rw [Rau.digit_one_val hone, Rau.digit_one_val hone, if_neg (by simp only; omega), if_pos rfl] at hval
  exact absurd hval Nat.zero_ne_one

/-! ## The digit subtraction -/

/-- A digit lane is the subtraction modulo B of the library, whose group laws serve each digit. -/
theorem Rau.subDigit_eq_sub (dx dy : Fin c.base) : Rau.subDigit dx dy = dx - dy :=
  Fin.ext (by rw [Rau.subDigit_val, Fin.val_sub]; congr 1; omega)

theorem Rau.digit_dsub (x y : RingElem c) (i : Fin c.digits) :
    Rau.digit (Rau.dsub x y) i = Rau.digit x i - Rau.digit y i := by
  rw [Rau.dsub, Rau.digit_compose, Rau.subDigit_eq_sub]

theorem Rau.digit_dsub_val (x y : RingElem c) (i : Fin c.digits) : (Rau.digit (Rau.dsub x y) i).val =
    (c.base + (Rau.digit x i).val - (Rau.digit y i).val) % c.base := by
  rw [Rau.dsub, Rau.digit_compose, Rau.subDigit_val]

theorem Rau.dsub_self (x : RingElem c) : Rau.dsub x x = RingElem.zero c := by
  have : NeZero c.base := .of_pos c.base_pos
  refine Rau.ext_digits fun i => ?_
  rw [Rau.digit_dsub, sub_self, Rau.digit_zero]
  rfl

theorem Rau.dsub_zero (x : RingElem c) : Rau.dsub x (RingElem.zero c) = x := by
  have : NeZero c.base := .of_pos c.base_pos
  refine Rau.ext_digits fun i => ?_
  rw [Rau.digit_dsub, Rau.digit_zero]
  exact sub_zero _

theorem Rau.dsub_dsub_cancel (x y : RingElem c) : Rau.dsub x (Rau.dsub x y) = y := by
  have : NeZero c.base := .of_pos c.base_pos
  refine Rau.ext_digits fun i => ?_
  rw [Rau.digit_dsub, Rau.digit_dsub, sub_sub_cancel]

theorem Rau.dsub_dsub_self_left (x y : RingElem c) :
    Rau.dsub (Rau.dsub x y) x = Rau.dsub (RingElem.zero c) y := by
  have : NeZero c.base := .of_pos c.base_pos
  refine Rau.ext_digits fun i => ?_
  rw [Rau.digit_dsub, Rau.digit_dsub, Rau.digit_dsub, Rau.digit_zero, sub_sub_cancel_left]
  exact (zero_sub _).symm

/-- Both act on the digits: one moves them, the other subtracts them where they stand. -/
theorem Rau.rotr_dsub (x y : RingElem c) : Rau.rotr (Rau.dsub x y) = Rau.dsub (Rau.rotr x) (Rau.rotr y) :=
  Rau.ext_digits fun i => by simp only [Rau.digit_rotr, Rau.digit_dsub]

/-- In base 2 a digit is a bit, and subtraction modulo 2 is the exclusive-or of two bits. -/
theorem Rau.dsub_val_of_base_two (h : c.base = 2) (x y : RingElem c) : (Rau.dsub x y).val = x.val ^^^ y.val := by
  have hmod : c.modulus = 2 ^ c.digits := by rw [RauConfig.modulus, h]
  have hlt : x.val ^^^ y.val < c.modulus :=
    (Nat.xor_lt_two_pow (x.isLt.trans_eq hmod) (y.isLt.trans_eq hmod)).trans_eq hmod.symm
  suffices hdsub : Rau.dsub x y = ⟨x.val ^^^ y.val, hlt⟩ from congrArg Fin.val hdsub
  refine Rau.ext_digits fun i => Fin.ext ?_
  rw [Rau.digit_dsub_val]
  simp only [Rau.digit_val, h, Nat.xor_div_two_pow, Nat.xor_mod_two_eq]
  omega

/-- Settles O52; the two vectors of the source are evaluated. -/
theorem dsubSubtractsEachDigit : Obligations.DsubSubtractsEachDigit := by
  refine ⟨by decide, fun c x y => ⟨fun i => ?_, Rau.dsub_self x, Rau.dsub_zero x⟩, fun x y hx hy => ?_,
    fun x y hx hy => ?_⟩
  · have hlt := (Rau.digit y i).isLt
    rw [Rau.digit_dsub_val, Int.natCast_mod, Nat.cast_sub (by omega), Nat.cast_add]
  · obtain rfl : x = RingElem.reduce _ 194 := Fin.ext hx
    obtain rfl : y = RingElem.reduce _ 52 := Fin.ext hy
    decide
  · obtain rfl : x = RingElem.reduce _ 0 := Fin.ext hx
    obtain rfl : y = RingElem.reduce _ 1 := Fin.ext hy
    decide

/-! ## The laws -/

theorem Rau.succ_max : Rau.succ (RingElem.max c) = RingElem.zero c := by
  rw [Fin.ext_iff, Rau.succ_val, if_pos rfl, RingElem.zero_val]

theorem Rau.pred_zero : Rau.pred (RingElem.zero c) = RingElem.max c := by
  rw [Fin.ext_iff, Rau.pred_val, if_pos RingElem.zero_val]

theorem Rau.succ_pred (x : RingElem c) : Rau.succ (Rau.pred x) = x := by
  by_cases hzero : x = RingElem.zero c
  · rw [hzero, Rau.pred_zero, Rau.succ_max]
  · have hne : x.val ≠ 0 := fun h => hzero (Fin.ext h)
    have hx := x.isLt
    simp only [Fin.ext_iff, Rau.succ_val, Rau.pred_val, if_neg hne, RingElem.max_val]
    split_ifs <;> omega

theorem Rau.pred_succ (x : RingElem c) : Rau.pred (Rau.succ x) = x := by
  by_cases hmax : x = RingElem.max c
  · rw [hmax, Rau.succ_max, Rau.pred_zero]
  · have hsucc : (Rau.succ x).val = x.val + 1 := by rw [Rau.succ_val, if_neg hmax]
    rw [Fin.ext_iff, Rau.pred_val, hsucc, if_neg (Nat.succ_ne_zero _), Nat.add_sub_cancel]

/-- Settles O53: (a) to (f) by the branches, (g) to (i) by the digits. -/
theorem ringUnitLaws : Obligations.RingUnitLaws := by
  intro c x
  have hx := x.isLt
  have hm := c.two_le_modulus
  refine ⟨⟨Rau.succ_pred x, Rau.pred_succ x⟩, Rau.succ_max, Rau.pred_zero, ?_, ?_, fun one hone => ?_,
    Rau.dsub_self x, Rau.dsub_zero x, Rau.iterate_rotr_digits x⟩
  · rw [Fin.ext_iff, Rau.add_val, RingElem.zero_val, Nat.add_zero, if_neg hx.not_ge]
  · rw [Rau.add_val, RingElem.max_val, if_pos (by omega)]
    omega
  · have hsum : Rau.add one (RingElem.max c) = RingElem.zero c := by
      rw [Fin.ext_iff, Rau.add_val, hone, RingElem.max_val, RingElem.zero_val, if_pos (by omega)]
      omega
    exact ⟨hsum, (Rau.add_comm _ _).trans hsum⟩

/-- `add` and `sub` are those of the library modulo END, whose group laws are R104 (a). -/
theorem Rau.add_eq_add (x y : RingElem c) : Rau.add x y = x + y := rfl

theorem Rau.sub_eq_sub (x y : RingElem c) : Rau.sub x y = x - y :=
  Fin.ext (by rw [Fin.val_sub, Nat.add_comm]; rfl)

/-- Settles O54: (a) by the group laws modulo END, (b) to (d) and (f) digit by digit, (e) by the order of rotr. -/
theorem ringUnitDerivedLaws : Obligations.RingUnitDerivedLaws := by
  intro c
  have : NeZero c.modulus := .of_pos c.modulus_pos
  refine ⟨fun x y z => ?_, Rau.dsub_dsub_cancel, Rau.dsub_dsub_self_left, Rau.dsub_val_of_base_two,
    ⟨Rau.rotr_bijective, fun x y hxy i j hi hj => ?_⟩, Rau.rotr_dsub⟩
  · simp only [Rau.add_eq_add, Rau.sub_eq_sub]
    exact ⟨add_comm x y, add_assoc x y z, add_sub_cancel_right x y, sub_add_cancel x y⟩
  · obtain rfl : j = ⟨0, c.digits_ge_one⟩ := Fin.ext hj
    rw [← hxy, Rau.digit_rotr_last x i hi]

/-! ## A base that is a power of two -/

theorem Rau.isValid_eq_true_iff {v : BitVec c.width} : Rau.isValid v = true ↔ v.toNat < c.modulus := by
  have hm := c.modulus_pos
  rw [Rau.isValid, decide_eq_true_iff, RingElem.max_val]
  omega

/-- Settles O56: division by (2^k)^i is a shift by k·i, and END = 2^W where W = k·N. -/
theorem powerOfTwoBaseIsABitSlice : Obligations.PowerOfTwoBaseIsABitSlice := by
  intro c k hbase
  refine ⟨fun x i => ?_, fun hwidth => ?_⟩
  · rw [BitVec.extractLsb'_toNat, RingElem.toBus_toNat, Rau.digit_val, hbase, ← Nat.pow_mul,
      Nat.shiftRight_eq_div_pow]
  · have hmod : c.modulus = 2 ^ c.width := by rw [RauConfig.modulus, hbase, hwidth, Nat.pow_mul]
    refine ⟨hmod, fun v => Rau.isValid_eq_true_iff.mpr (hmod ▸ v.isLt), fun x y => BitVec.eq_of_toNat_eq ?_⟩
    rw [BitVec.toNat_add, RingElem.toBus_toNat, RingElem.toBus_toNat, RingElem.toBus_toNat]
    exact congrArg ((x.val + y.val) % ·) hmod

/-! ## The ports -/

@[simp] theorem Rau.decodeOp_opCode (o : RauOp) : Rau.decodeOp (Rau.opCode o) = some o := by
  cases o <;> decide

/-- Only 111 selects no operation (30_encoding.md R78). -/
theorem Rau.exists_opCode_eq {op : BitVec 3} (h : op ≠ 0b111#3) : ∃ o : RauOp, Rau.opCode o = op := by
  have hsome : ∀ op : BitVec 3, op ≠ 0b111#3 → (Rau.decodeOp op).isSome := by decide
  obtain ⟨o, ho⟩ := Option.isSome_iff_exists.mp (hsome op h)
  exact ⟨o, by simpa using List.find?_some ho⟩

theorem Rau.ports_v (op : BitVec 3) (x y : BitVec c.width) : (Rau.ports op x y).v = Rau.isValid x := by
  unfold Rau.ports
  split
  · rfl
  · split <;> rfl

/-- An operation that ignores `y` is given 0 for it. -/
theorem Rau.operandY_toBus (o : RauOp) (y : RingElem c) :
    Rau.operandY o y.toBus = some (if Rau.usesY o then y else RingElem.zero c) := by
  rw [Rau.operandY, RingElem.ofBus?_toBus]
  split_ifs <;> rfl

/-- No result depends on an operand that its operation ignores. -/
theorem Rau.result_ignores_unused (o : RauOp) (x y : RingElem c) :
    Rau.result o x (if Rau.usesY o then y else RingElem.zero c) = Rau.result o x y := by
  cases o <;> rfl

/-- With ring elements on both operand ports, each op code gives its operation's result and the digits of `x` (R107). -/
theorem Rau.ports_opCode_toBus (o : RauOp) (x y : RingElem c) :
    Rau.ports (Rau.opCode o) x.toBus y.toBus =
      { r := Rau.result o x y, v := Rau.isValid x.toBus, dig := Rau.digitBus x } := by
  simp [Rau.ports, Rau.operandY_toBus, Rau.result_ignores_unused]

theorem Rau.ports_opCode_r (o : RauOp) (x y : RingElem c) :
    (Rau.ports (Rau.opCode o) x.toBus y.toBus).r = Rau.result o x y := by
  rw [Rau.ports_opCode_toBus]

theorem Rau.ports_opCode_dig (o : RauOp) (x y : RingElem c) :
    (Rau.ports (Rau.opCode o) x.toBus y.toBus).dig = Rau.digitBus x := by
  rw [Rau.ports_opCode_toBus]

/-- VALID answers on every pattern of both operands (R96; log 8). -/
theorem Rau.ports_valid_r (x y : BitVec c.width) :
    (Rau.ports (Rau.opCode .valid) x y).r = BitVec.ofNat c.width (Rau.isValid x).toNat := by
  by_cases hx : x.toNat < c.modulus
  · have hbus : RingElem.ofBus? c x = some ⟨x.toNat, hx⟩ := RingElem.ofNat?_of_lt hx
    simp [Rau.ports, Rau.operandY, Rau.usesY, Rau.result, hbus, Rau.isValid_eq_true_iff.mpr hx]
  · simp [Rau.ports, Rau.operandY, Rau.usesY, RingElem.ofBus?_of_ge (Nat.le_of_not_lt hx)]

/-- A Boolean fits the result port, which is at least one bit wide. -/
theorem Rau.toNat_ofNat_bool (c : RauConfig) (v : Bool) : (BitVec.ofNat c.width v.toNat).toNat = v.toNat :=
  Nat.mod_eq_of_lt (v.toNat_lt.trans_le (c.two_le_modulus.trans c.modulus_le))

theorem Rau.digit_lt_two_pow (x : RingElem c) (i : Fin c.digits) : (Rau.digit x i).val < 2 ^ c.digitWidth :=
  (Nat.le_sub_one_of_lt (Rau.digit x i).isLt).trans_lt Nat.lt_log2_self

/-- Each digit stands in its own DW bits of the digit port (R106). -/
theorem Rau.digitBus_slice (x : RingElem c) (i : Fin c.digits) :
    ((Rau.digitBus x).extractLsb' (c.digitWidth * i.val) c.digitWidth).toNat = (Rau.digit x i).val := by
  have hlt := Rau.radixSum_lt (Nat.two_pow_pos c.digitWidth) c.digits _ (Rau.digit_lt_two_pow x)
  rw [← Nat.pow_mul, Nat.mul_comm] at hlt
  rw [BitVec.extractLsb'_toNat, Rau.digitBus, BitVec.toNat_ofNat, Nat.mod_eq_of_lt hlt, Nat.shiftRight_eq_div_pow,
    Nat.pow_mul, Rau.radixSum_digit (Nat.two_pow_pos c.digitWidth) _ _ (Rau.digit_lt_two_pow x)]

/-- Settles O57: each code is one of the seven operations', and VALID's answer is the Boolean of the port `v`. -/
theorem rauPortsGiveTheOperations : Obligations.RauPortsGiveTheOperations := by
  intro c
  refine ⟨Rau.ports_v, fun x y => ?_, fun x y => ⟨Rau.ports_opCode_r .add x y, Rau.ports_opCode_r .sub x y,
    Rau.ports_opCode_r .succ x y, Rau.ports_opCode_r .pred x y, Rau.ports_opCode_r .rotr x y,
    Rau.ports_opCode_r .dsub x y, fun op hop i => ?_⟩⟩
  · calc (Rau.ports (Rau.opCode .valid) x y).r.toNat
        = (Rau.isValid x).toNat := by rw [Rau.ports_valid_r, Rau.toNat_ofNat_bool]
      _ = if x.toNat ≤ c.modulus - 1 then 1 else 0 := Bool.cond_decide _ 1 0
  · obtain ⟨o, rfl⟩ := Rau.exists_opCode_eq hop
    rw [Rau.ports_opCode_dig, Rau.digitBus_slice]

end Sys2Proof.Machine
end

section
/-! PROOFS. The execution core (41_execution_core.md): what a step changes, where it leaves STATUS, C and D, the
handshake of a step request, and that the clock edges of the micro-sequence carry out the step. -/

namespace Sys2Proof.Machine

variable {cfg : Config}

/-! ## The step as the meaning of the word at C -/

/-- Settles O17: the accepted and fetched machine has the word at C in IR. -/
theorem stepRunsTheDecodedInstruction : Obligations.StepRunsTheDecodedInstruction := by
  intro cfg b i hready hdec
  rw [step_ready_fetched hready]
  exact State.runLatched_instr (s := ⟨cfg, b.accept.fetch⟩) hdec

/-- Accepting a request changes nothing once LOADPHASE is 0. -/
theorem Block.accept_eq_self {b : Block cfg} (h : b.loadPhase = false) : b.accept = b := by
  cases b
  cases h
  rfl

/-- Settles O18: a terminal machine only accepts the request. -/
theorem terminalStepChangesNothing : Obligations.TerminalStepChangesNothing := fun _ b hidle hterminal =>
  ⟨b.accept, step_terminal hidle hterminal, ⟨rfl, rfl, rfl, rfl, rfl, rfl⟩, Block.accept_eq_self⟩

/-! ## What a step changes -/

/-- What the execute phase of a decoded word can leave of C, D, memory and the channels (41_execution_core.md R136,
R138): `w` is the block it leaves from `b`. -/
structure Block.Executed (dec : Decoded) (b w : Block cfg) : Prop where
  c : w.c = if dec = .instr .jmp then b.mem.read b.d else b.c
  d : w.d = if dec = .instr .ldd then b.mem.read b.d else b.d
  mem : w.mem = b.mem ∨ ∃ z, w.mem = b.mem.write b.d z
  chan : w.chan = b.chan ∨ w.chan = b.chan.takeIn ∨ w.chan = b.chan.takeOut ∨
    w.chan = b.chan.takeOut.wrote (outByte b.a) ∧ dec = .instr .out ∧ b.a ≠ RingElem.max cfg.toRauConfig

/-- After execute a step ends, or waits on a silent channel. -/
def Block.Rests (w b' : Block cfg) : Prop := b' = w.finish ∨ ∃ p : Phase cfg, p ≠ .idle ∧ b' = w.setPhase p

theorem Block.Rests.mem {w b' : Block cfg} (h : w.Rests b') : b'.mem = w.mem := by
  rcases h with rfl | ⟨p, -, rfl⟩ <;> simp

theorem Block.Rests.chan {w b' : Block cfg} (h : w.Rests b') : b'.chan = w.chan := by
  rcases h with rfl | ⟨p, -, rfl⟩ <;> simp

/-- In IDLE the step has ended, so if it is running both pointers have moved on. -/
theorem Block.Rests.pointers {w b' : Block cfg} (h : w.Rests b') (hready : b'.Ready) :
    b'.c = Rau.succ w.c ∧ b'.d = Rau.succ w.d := by
  obtain ⟨hidle, hrun⟩ := hready
  rcases h with rfl | ⟨p, hp, rfl⟩
  · rw [Block.finish_status] at hrun
    rw [Block.finish_running hrun]
    exact ⟨rfl, rfl⟩
  · exact absurd hidle hp

theorem Block.aIsMax_eq_true_iff {b : Block cfg} : b.aIsMax = true ↔ b.a = RingElem.max cfg.toRauConfig :=
  decide_eq_true_iff

/-- OUT below MAX: silence takes a sample, Ok writes the byte, a failure writes nothing. -/
theorem Block.awaitOut_executed {b : Block cfg} (hmax : b.a ≠ RingElem.max cfg.toRauConfig) :
    ∃ w, Block.Executed (.instr .out) b w ∧ w.Rests b.awaitOut := by
  cases hs : b.chan.outSample with
  | none =>
    rw [Block.awaitOut_silent hs]
    exact ⟨b.takeOut, ⟨rfl, rfl, .inl rfl, .inr (.inr (.inl rfl))⟩, .inr ⟨.outWait, nofun, rfl⟩⟩
  | some ans =>
    rw [Block.awaitOut_answered hs]
    refine ⟨b.takeOut.outAnswered ans, ?_, .inl rfl⟩
    cases ans with
    | ok => exact ⟨rfl, rfl, .inl rfl, .inr (.inr (.inr ⟨rfl, rfl, hmax⟩))⟩
    | failure k => exact ⟨rfl, rfl, .inl rfl, .inr (.inr (.inl rfl))⟩

/-- IN takes a sample, whatever it is. -/
theorem Block.awaitIn_executed (b : Block cfg) : ∃ w, Block.Executed (.instr .inp) b w ∧ w.Rests b.awaitIn := by
  cases hs : b.chan.inSample with
  | none =>
    rw [Block.awaitIn_silent hs]
    exact ⟨b.takeIn, ⟨rfl, rfl, .inl rfl, .inr (.inl rfl)⟩, .inr ⟨.inWait, nofun, rfl⟩⟩
  | some ans =>
    rw [Block.awaitIn_answered hs]
    refine ⟨b.takeIn.inAnswered ans, ?_, .inl rfl⟩
    cases ans <;> exact ⟨rfl, rfl, .inl rfl, .inr (.inl rfl)⟩

/-- Each instruction executes and comes to rest; its work is the block that the end of the step is applied to. -/
theorem exec_executed {i : Instr} {b b' : Block cfg} (h : exec i ⟨cfg, b⟩ = .next ⟨cfg, b'⟩) :
    ∃ w, Block.Executed (.instr i) b w ∧ w.Rests b' := by
  cases i with
  | halt => cases h; exact ⟨b.haltWork, ⟨rfl, rfl, .inl rfl, .inl rfl⟩, .inl rfl⟩
  | ldd => cases h; exact ⟨b.lddWork, ⟨rfl, rfl, .inl rfl, .inl rfl⟩, .inl rfl⟩
  | rot => cases h; exact ⟨b.readOperand.rotWriteBack, ⟨rfl, rfl, .inr ⟨_, rfl⟩, .inl rfl⟩, .inl rfl⟩
  | jmp => cases h; exact ⟨b.jmpWork, ⟨rfl, rfl, .inl rfl, .inl rfl⟩, .inl rfl⟩
  | nop => cases h; exact ⟨b.noWork, ⟨rfl, rfl, .inl rfl, .inl rfl⟩, .inl rfl⟩
  | out =>
    by_cases hmax : b.aIsMax = true
    · rw [exec_out_max hmax] at h
      cases h
      exact ⟨b.outEofWork, ⟨rfl, rfl, .inl rfl, .inl rfl⟩, .inl rfl⟩
    · rw [exec_out_await hmax] at h
      cases h
      exact Block.awaitOut_executed (mt Block.aIsMax_eq_true_iff.mpr hmax)
  | sub => cases h; exact ⟨b.readOperand.subWriteBack, ⟨rfl, rfl, .inr ⟨_, rfl⟩, .inl rfl⟩, .inl rfl⟩
  | inp => cases h; exact Block.awaitIn_executed b

theorem State.runLatched_executed {b b' : Block cfg} (h : State.runLatched ⟨cfg, b⟩ = .next ⟨cfg, b'⟩) :
    ∃ w, Block.Executed (decode b.ir.val) b w ∧ w.Rests b' := by
  cases hdec : decode b.ir.val with
  | instr i => exact exec_executed ((State.runLatched_instr (s := ⟨cfg, b⟩) hdec).symm.trans h)
  | unmapped =>
    rw [State.runLatched_unmapped hdec] at h
    cases h
    exact ⟨b.noWork, ⟨rfl, rfl, .inl rfl, .inl rfl⟩, .inl rfl⟩

/-- Accepting and fetching touch neither the pointers nor what they point to. -/
theorem step_ready_executed {b b' : Block cfg} (hready : b.Ready) (hstep : step ⟨cfg, b⟩ = .next ⟨cfg, b'⟩) :
    ∃ w, Block.Executed (decode (b.mem.read b.c).val) b w ∧ w.Rests b' := by
  obtain ⟨w, ⟨hc, hd, hmem, hchan⟩, hrests⟩ := State.runLatched_executed ((step_ready_fetched hready).symm.trans hstep)
  exact ⟨w, ⟨hc, hd, hmem, hchan⟩, hrests⟩

/-- Settles O23: the step has ended, so both pointers move on from where execute left them. -/
theorem runningStepAdvancesCAndD : Obligations.RunningStepAdvancesCAndD := by
  intro cfg b b' hready hstep hready'
  obtain ⟨w, hexec, hrests⟩ := step_ready_executed hready hstep
  rw [← hexec.c, ← hexec.d]
  exact hrests.pointers hready'

theorem outByte_eq_ofNat_mod (x : cfg.Elem) : outByte x = BitVec.ofNat 8 (x.val % 256) := by
  apply BitVec.eq_of_toNat_eq
  simp [outByte]

/-- Settles O26: execute stores at D alone, and takes at most one sample; only an Ok to OUT writes a byte. -/
theorem stepTouchesOneWordAndOneChannel : Obligations.StepTouchesOneWordAndOneChannel := by
  intro cfg b b' hready hstep
  obtain ⟨w, hexec, hrests⟩ := step_ready_executed hready hstep
  rw [hrests.mem, hrests.chan, ← outByte_eq_ofNat_mod]
  constructor
  · intro addr haddr
    rcases hexec.mem with hmem | ⟨z, hmem⟩
    · rw [hmem]
    · rw [hmem, Memory.read_write_other _ _ haddr]
  · rcases hexec.chan with hchan | hchan | hchan | ⟨hchan, hout⟩ <;> rw [hchan]
    · exact ⟨Nat.le_succ _, .inl rfl⟩
    · exact ⟨(Nat.add_right_comm _ _ _).le, .inl rfl⟩
    · exact ⟨le_rfl, .inl rfl⟩
    · exact ⟨le_rfl, .inr ⟨rfl, hout⟩⟩

/-! ## STATUS after a step -/

theorem Block.awaitOut_status_of_failure {b : Block cfg} {k : Nat} (h : b.chan.outSample = some (.failure k)) :
    b.awaitOut.status = .writeError (causeOf cfg k) := by
  rw [Block.awaitOut_answered h, Block.finish_status, Block.outAnswered_failure, Block.setStatus_status]

theorem Block.awaitOut_status_of_no_failure {b : Block cfg} (h : ∀ k, b.chan.outSample ≠ some (.failure k)) :
    b.awaitOut.status = b.status := by
  match hs : b.chan.outSample with
  | none => rw [Block.awaitOut_silent hs]; rfl
  | some .ok => rw [Block.awaitOut_answered hs, Block.finish_status]; rfl
  | some (.failure k) => exact absurd hs (h k)

theorem Block.awaitIn_status_of_failure {b : Block cfg} {k : Nat} (h : b.chan.inSample = some (.failure k)) :
    b.awaitIn.status = .readError (causeOf cfg k) := by
  rw [Block.awaitIn_answered h, Block.finish_status, Block.inAnswered_failure, Block.setA_status,
    Block.setStatus_status]

theorem Block.awaitIn_status_of_no_failure {b : Block cfg} (h : ∀ k, b.chan.inSample ≠ some (.failure k)) :
    b.awaitIn.status = b.status := by
  match hs : b.chan.inSample with
  | none => rw [Block.awaitIn_silent hs]; rfl
  | some (.byte x) => rw [Block.awaitIn_answered hs, Block.finish_status]; rfl
  | some .endOfStream => rw [Block.awaitIn_answered hs, Block.finish_status]; rfl
  | some (.failure k) => exact absurd hs (h k)

/-- Settles O21: a terminal machine only accepts the request; a running one takes the row of the word at C. -/
theorem statusFollowsTheTransitionTable : Obligations.StatusFollowsTheTransitionTable := by
  intro cfg b b' hidle hstep
  constructor
  · intro hterminal
    rw [step_terminal hidle hterminal] at hstep
    cases hstep
    rfl
  · intro hrun
    rw [step_ready_fetched ⟨hidle, hrun⟩] at hstep
    cases hdec : decode (b.mem.read b.c).val with
    | unmapped =>
      rw [State.runLatched_unmapped hdec] at hstep
      cases hstep
      exact (Block.finish_status _).trans hrun
    | instr i =>
      rw [State.runLatched_instr hdec] at hstep
      cases i with
      | halt => cases hstep; exact Block.finish_status _
      | ldd | rot | jmp | nop | sub => cases hstep; exact (Block.finish_status _).trans hrun
      | out =>
        dsimp only
        split_ifs with hmax
        · rw [exec_out_max (b := b.accept.fetch) (Block.aIsMax_eq_true_iff.mpr hmax)] at hstep
          cases hstep
          exact Block.finish_status _
        · rw [exec_out_await (b := b.accept.fetch) (mt Block.aIsMax_eq_true_iff.mp hmax)] at hstep
          cases hstep
          split
          · next k hs => exact Block.awaitOut_status_of_failure (b := b.accept.fetch) hs
          · next hs => exact (Block.awaitOut_status_of_no_failure (b := b.accept.fetch) hs).trans hrun
      | inp =>
        cases hstep
        dsimp only
        split
        · next k hs => exact Block.awaitIn_status_of_failure (b := b.accept.fetch) hs
        · next hs => exact (Block.awaitIn_status_of_no_failure (b := b.accept.fetch) hs).trans hrun

/-! ## One clock edge, by the micro-state -/

section Edge

variable {b : Block cfg} {p : PinsIn cfg}

theorem Block.edge_fetch (hrst : p.rst = false) (h : b.phase = .fetch) : b.edge p = .next (b.fetch.setPhase .exec) := by
  simp only [Block.edge, hrst, h, Bool.false_eq_true, if_false]

theorem Block.edge_exec (hrst : p.rst = false) (h : b.phase = .exec) : b.edge p = .next b.execEdge := by
  simp only [Block.edge, hrst, h, Bool.false_eq_true, if_false]

theorem Block.edge_execWrite (hrst : p.rst = false) (h : b.phase = .execWrite) :
    b.edge p = .next (b.writeBack.setPhase .advance) := by
  simp only [Block.edge, hrst, h, Bool.false_eq_true, if_false]

theorem Block.edge_outWait (hrst : p.rst = false) (h : b.phase = .outWait) : b.edge p = .next (b.outWaitEdge p) := by
  simp only [Block.edge, hrst, h, Bool.false_eq_true, if_false]

theorem Block.edge_inWait (hrst : p.rst = false) (h : b.phase = .inWait) : b.edge p = b.inWaitEdge p := by
  simp only [Block.edge, hrst, h, Bool.false_eq_true, if_false]

theorem Block.edge_advance (hrst : p.rst = false) (h : b.phase = .advance) : b.edge p = .next b.finish := by
  simp only [Block.edge, hrst, h, Bool.false_eq_true, if_false]

/-- An edge in IDLE with no load is the step request alone. -/
theorem Block.edge_idle (hrst : p.rst = false) (hwe : p.ldWe = false) (h : b.phase = .idle) :
    b.edge p = .next (if p.stepReq then b.acceptEdge else b) := by
  simp only [Block.edge, Block.idleEdge, Block.loadEdge, hrst, hwe, h, Bool.false_eq_true, if_false]

/-- Outside IDLE the edge does not look at the step request. -/
theorem Block.edge_busy (h : b.phase ≠ .idle) (v : Bool) : b.edge p = b.edge { p with stepReq := v } := by
  unfold Block.edge
  cases hp : b.phase with
  | idle => exact absurd hp h
  | clear | fetch | exec | execWrite | outWait | inWait | advance => rfl

end Edge

/-- Settles O37: `busy` is 0 in IDLE alone, `step_ack` is 1 in ADVANCE alone, and the edge in ADVANCE ends the step. -/
theorem stepRequestHandshake : Obligations.StepRequestHandshake := by
  intro cfg b p hrst
  refine ⟨fun hidle hwe hreq => ?_, fun hidle hwe hreq => ?_, fun hbusy => ?_, fun hack => ?_⟩
  · rw [Block.edge_idle hrst hwe hidle, if_pos hreq]
    rfl
  · rw [Block.edge_idle hrst hwe hidle, if_neg (by simp [hreq])]
  · have hphase : b.phase ≠ .idle := of_decide_eq_true hbusy
    exact ⟨Block.edge_busy hphase false, Block.edge_busy hphase true⟩
  · have hphase : b.phase = .advance := of_decide_eq_true hack
    exact ⟨b.finish, Block.edge_advance hrst hphase, by simp [Block.pins], Block.finish_stopped⟩

/-! ## The pins as the world drives them -/

@[simp] theorem PinsIn.withIn_rst (p : PinsIn cfg) (smp : Option InAnswer) : (p.withIn smp).rst = p.rst := by
  rcases smp with _ | _ | _ | _ <;> rfl
@[simp] theorem PinsIn.withIn_ldWe (p : PinsIn cfg) (smp : Option InAnswer) : (p.withIn smp).ldWe = p.ldWe := by
  rcases smp with _ | _ | _ | _ <;> rfl
@[simp] theorem PinsIn.withIn_stepReq (p : PinsIn cfg) (smp : Option InAnswer) :
    (p.withIn smp).stepReq = p.stepReq := by
  rcases smp with _ | _ | _ | _ <;> rfl
@[simp] theorem PinsIn.withOut_rst (p : PinsIn cfg) (smp : Option OutAnswer) : (p.withOut smp).rst = p.rst := by
  rcases smp with _ | _ | _ <;> rfl
@[simp] theorem PinsIn.withOut_ldWe (p : PinsIn cfg) (smp : Option OutAnswer) : (p.withOut smp).ldWe = p.ldWe := by
  rcases smp with _ | _ | _ <;> rfl
@[simp] theorem PinsIn.withOut_stepReq (p : PinsIn cfg) (smp : Option OutAnswer) :
    (p.withOut smp).stepReq = p.stepReq := by
  rcases smp with _ | _ | _ <;> rfl

theorem Block.worldPins_rst (b : Block cfg) : b.worldPins.rst = false := by simp [Block.worldPins, PinsIn.low]
theorem Block.worldPins_ldWe (b : Block cfg) : b.worldPins.ldWe = false := by simp [Block.worldPins, PinsIn.low]
theorem Block.worldPins_stepReq (b : Block cfg) : b.worldPins.stepReq = true := by simp [Block.worldPins]

/-- The output pins do not reach an edge in INWAIT. -/
theorem Block.inWaitEdge_withOut (b : Block cfg) (p : PinsIn cfg) (smp : Option OutAnswer) :
    b.inWaitEdge (p.withOut smp) = b.inWaitEdge p := by
  rcases smp with _ | _ | _ <;> rfl

theorem Block.outWaitEdge_silent (b : Block cfg) (p : PinsIn cfg) : b.outWaitEdge (p.withOut none) = b := rfl

theorem Block.inWaitEdge_silent (b : Block cfg) (p : PinsIn cfg) : b.inWaitEdge (p.withIn none) = .next b := rfl

/-- An answer on the pins is the channel's answer, its cause cut to CAUSE_W bits on the way (10_state.md R32). -/
theorem Block.outWaitEdge_answered (b : Block cfg) (p : PinsIn cfg) (ans : OutAnswer) :
    b.outWaitEdge (p.withOut (some ans)) = (b.outAnswered ans).setPhase .advance := by
  cases ans with
  | ok => rfl
  | failure k => simp [Block.outWaitEdge, PinsIn.withOut, PinsIn.outAnswer, Block.outAnswered]

theorem Block.inWaitEdge_answered (b : Block cfg) (p : PinsIn cfg) (ans : InAnswer) :
    b.inWaitEdge (p.withIn (some ans)) = .next ((b.inAnswered ans).setPhase .advance) := by
  cases ans with
  | byte x => rfl
  | endOfStream => rfl
  | failure k => simp [Block.inWaitEdge, PinsIn.withIn, PinsIn.inAnswer?, Block.inAnswered]

/-! ## What comes after a phase does not depend on which phase it was -/

theorem Block.setPhase_eq_self {b : Block cfg} {p : Phase cfg} (h : b.phase = p) : b.setPhase p = b := by
  subst h
  rfl

theorem Block.outAnswered_setPhase (b : Block cfg) (ans : OutAnswer) (p : Phase cfg) :
    (b.setPhase p).outAnswered ans = (b.outAnswered ans).setPhase p := by
  cases ans <;> rfl

theorem Block.inAnswered_setPhase (b : Block cfg) (ans : InAnswer) (p : Phase cfg) :
    (b.setPhase p).inAnswered ans = (b.inAnswered ans).setPhase p := by
  cases ans <;> rfl

theorem Block.awaitOut_setPhase (b : Block cfg) (p : Phase cfg) : (b.setPhase p).awaitOut = b.awaitOut := by
  cases hs : b.chan.outSample with
  | none => rw [Block.awaitOut_silent hs, Block.awaitOut_silent (b := b.setPhase p) hs]; rfl
  | some ans =>
    rw [Block.awaitOut_answered hs, Block.awaitOut_answered (b := b.setPhase p) hs]
    exact (congrArg Block.finish (Block.outAnswered_setPhase b.takeOut ans p)).trans (Block.finish_setPhase _ p)

theorem Block.awaitIn_setPhase (b : Block cfg) (p : Phase cfg) : (b.setPhase p).awaitIn = b.awaitIn := by
  cases hs : b.chan.inSample with
  | none => rw [Block.awaitIn_silent hs, Block.awaitIn_silent (b := b.setPhase p) hs]; rfl
  | some ans =>
    rw [Block.awaitIn_answered hs, Block.awaitIn_answered (b := b.setPhase p) hs]
    exact (congrArg Block.finish (Block.inAnswered_setPhase b.takeIn ans p)).trans (Block.finish_setPhase _ p)

/-- The write-back goes by the latched word alone. -/
theorem Block.writeBack_setPhase (b : Block cfg) (p : Phase cfg) :
    (b.setPhase p).writeBack = b.writeBack.setPhase p := by
  unfold Block.writeBack
  rw [Block.setPhase_ir]
  split <;> rfl

theorem next_finish_setPhase (b : Block cfg) (p : Phase cfg) :
    (Host.Outcome.next ⟨cfg, (b.setPhase p).finish⟩ : Host.Outcome State Fault Refusal) = .next ⟨cfg, b.finish⟩ := by
  rw [Block.finish_setPhase]

theorem exec_inp (b : Block cfg) : exec .inp ⟨cfg, b⟩ = .next ⟨cfg, b.awaitIn⟩ := rfl

theorem exec_setPhase (i : Instr) (b : Block cfg) (p : Phase cfg) :
    exec i ⟨cfg, b.setPhase p⟩ = exec i ⟨cfg, b⟩ := by
  cases i with
  | halt => exact next_finish_setPhase b.haltWork p
  | ldd => exact next_finish_setPhase b.lddWork p
  | rot => exact next_finish_setPhase b.readOperand.rotWriteBack p
  | jmp => exact next_finish_setPhase b.jmpWork p
  | nop => exact next_finish_setPhase b.noWork p
  | out =>
    by_cases hmax : b.aIsMax = true
    · rw [exec_out_max hmax, exec_out_max (b := b.setPhase p) hmax]
      exact next_finish_setPhase b.outEofWork p
    · rw [exec_out_await hmax, exec_out_await (b := b.setPhase p) hmax, Block.awaitOut_setPhase]
  | sub => exact next_finish_setPhase b.readOperand.subWriteBack p
  | inp => rw [exec_inp, exec_inp, Block.awaitIn_setPhase]

theorem State.runLatched_setPhase (b : Block cfg) (p : Phase cfg) :
    State.runLatched ⟨cfg, b.setPhase p⟩ = State.runLatched ⟨cfg, b⟩ := by
  cases hdec : decode b.ir.val with
  | instr i =>
    rw [State.runLatched_instr (s := ⟨cfg, b⟩) hdec, State.runLatched_instr (s := ⟨cfg, b.setPhase p⟩) hdec,
      exec_setPhase]
  | unmapped =>
    rw [State.runLatched_unmapped (s := ⟨cfg, b⟩) hdec, State.runLatched_unmapped (s := ⟨cfg, b.setPhase p⟩) hdec]
    exact next_finish_setPhase b p

/-! ## The clock edges of a step -/

/-- At most `k` clock edges, and at least one, take the block to the resting point that `o` answers. -/
def Block.ReachesIn (k : Nat) (b : Block cfg) (o : Host.Outcome State Fault Refusal) : Prop :=
  ∃ (n : Nat) (b' : Block cfg), 1 ≤ n ∧ n ≤ k ∧ Block.ticks n b = .next b' ∧ o = .next ⟨cfg, b'⟩ ∧ b'.AtRest

theorem Block.ReachesIn.mono {k m : Nat} {b : Block cfg} {o : Host.Outcome State Fault Refusal}
    (h : b.ReachesIn k o) (hkm : k ≤ m) : b.ReachesIn m o := by
  obtain ⟨n, b', hpos, hle, hticks, ho, hrest⟩ := h
  exact ⟨n, b', hpos, hle.trans hkm, hticks, ho, hrest⟩

theorem Block.ReachesIn.of_tick {b b' : Block cfg} (h : b.tick = .next b') (hrest : b'.AtRest) :
    b.ReachesIn 1 (.next ⟨cfg, b'⟩) :=
  ⟨1, b', le_rfl, le_rfl, Block.ticks_succ 0 h, rfl, hrest⟩

theorem Block.ReachesIn.after_tick {k : Nat} {b b₁ : Block cfg} {o : Host.Outcome State Fault Refusal}
    (h : b.tick = .next b₁) (hk : b₁.ReachesIn k o) : b.ReachesIn (k + 1) o := by
  obtain ⟨n, b', -, hle, hticks, ho, hrest⟩ := hk
  exact ⟨n + 1, b', Nat.le_add_left 1 n, Nat.succ_le_succ hle, (Block.ticks_succ n h).trans hticks, ho, hrest⟩

/-- Only the waits use up a sample. -/
theorem Block.tick_of_not_waiting {b : Block cfg} (hin : b.phase ≠ .inWait) (hout : b.phase ≠ .outWait) :
    b.tick = b.edge b.worldPins := by
  have hsampled : b.sampled = b := by
    unfold Block.sampled
    split
    · next h => exact absurd h hin
    · next h => exact absurd h hout
    · rfl
  rw [Block.tick, hsampled]

theorem Block.tick_outWait {b : Block cfg} (h : b.phase = .outWait) :
    b.tick = .next (b.takeOut.outWaitEdge b.worldPins) := by
  have hsampled : b.sampled = b.takeOut := by simp only [Block.sampled, h]
  rw [Block.tick, hsampled]
  exact Block.edge_outWait b.worldPins_rst h

theorem Block.tick_inWait {b : Block cfg} (h : b.phase = .inWait) : b.tick = b.takeIn.inWaitEdge b.worldPins := by
  have hsampled : b.sampled = b.takeIn := by simp only [Block.sampled, h]
  rw [Block.tick, hsampled]
  exact Block.edge_inWait b.worldPins_rst h

theorem Block.advance_reaches {b : Block cfg} (h : b.phase = .advance) : b.ReachesIn 1 (.next ⟨cfg, b.finish⟩) := by
  have htick : b.tick = .next b.finish := by
    rw [Block.tick_of_not_waiting (by simp [h]) (by simp [h]), Block.edge_advance b.worldPins_rst h]
  exact .of_tick htick (.inl rfl)

/-- An edge that leaves for ADVANCE is followed by the end of the step. -/
theorem Block.ReachesIn.of_tick_advance {b w : Block cfg} (h : b.tick = .next (w.setPhase .advance)) :
    b.ReachesIn 2 (.next ⟨cfg, w.finish⟩) := by
  have hadvance := Block.advance_reaches (b := w.setPhase .advance) rfl
  rw [Block.finish_setPhase] at hadvance
  exact .after_tick h hadvance

theorem Block.outWait_reaches {b : Block cfg} (h : b.phase = .outWait) :
    b.ReachesIn 2 (.next ⟨cfg, b.awaitOut⟩) := by
  have htick := Block.tick_outWait h
  unfold Block.worldPins at htick
  cases hs : b.chan.outSample with
  | none =>
    rw [hs, Block.outWaitEdge_silent] at htick
    rw [Block.awaitOut_silent hs, Block.setPhase_eq_self (b := b.takeOut) h]
    exact (Block.ReachesIn.of_tick htick (.inr (.inl h))).mono (by decide)
  | some ans =>
    rw [hs, Block.outWaitEdge_answered] at htick
    rw [Block.awaitOut_answered hs]
    exact .of_tick_advance htick

theorem Block.inWait_reaches {b : Block cfg} (h : b.phase = .inWait) :
    b.ReachesIn 2 (.next ⟨cfg, b.awaitIn⟩) := by
  have htick := Block.tick_inWait h
  unfold Block.worldPins at htick
  rw [Block.inWaitEdge_withOut] at htick
  cases hs : b.chan.inSample with
  | none =>
    rw [hs, Block.inWaitEdge_silent] at htick
    rw [Block.awaitIn_silent hs, Block.setPhase_eq_self (b := b.takeIn) h]
    exact (Block.ReachesIn.of_tick htick (.inr (.inr h))).mono (by decide)
  | some ans =>
    rw [hs, Block.inWaitEdge_answered] at htick
    rw [Block.awaitIn_answered hs]
    exact .of_tick_advance htick

theorem Block.execWrite_reaches {b : Block cfg} (h : b.phase = .execWrite) :
    b.ReachesIn 2 (.next ⟨cfg, b.writeBack.finish⟩) := by
  have htick : b.tick = .next (b.writeBack.setPhase .advance) := by
    rw [Block.tick_of_not_waiting (by simp [h]) (by simp [h]), Block.edge_execWrite b.worldPins_rst h]
  exact .of_tick_advance htick

/-- `>` and `|` take a second EXEC cycle, in which the latched word writes back the operand just read. -/
theorem Block.ReachesIn.of_tick_execWrite {b w : Block cfg} (h : b.tick = .next (w.setPhase .execWrite)) :
    b.ReachesIn 3 (.next ⟨cfg, w.writeBack.finish⟩) := by
  have hwrite := Block.execWrite_reaches (b := w.setPhase .execWrite) rfl
  rw [Block.writeBack_setPhase, Block.finish_setPhase] at hwrite
  exact .after_tick h hwrite

theorem Block.ReachesIn.of_tick_outWait {b : Block cfg} (h : b.tick = .next (b.setPhase .outWait)) :
    b.ReachesIn 3 (.next ⟨cfg, b.awaitOut⟩) := by
  have hwait := Block.outWait_reaches (b := b.setPhase .outWait) rfl
  rw [Block.awaitOut_setPhase] at hwait
  exact .after_tick h hwait

theorem Block.ReachesIn.of_tick_inWait {b : Block cfg} (h : b.tick = .next (b.setPhase .inWait)) :
    b.ReachesIn 3 (.next ⟨cfg, b.awaitIn⟩) := by
  have hwait := Block.inWait_reaches (b := b.setPhase .inWait) rfl
  rw [Block.awaitIn_setPhase] at hwait
  exact .after_tick h hwait

theorem Block.exec_reaches {b : Block cfg} (h : b.phase = .exec) :
    b.ReachesIn 3 (State.runLatched ⟨cfg, b⟩) := by
  have htick : b.tick = .next b.execEdge := by
    rw [Block.tick_of_not_waiting (by simp [h]) (by simp [h]), Block.edge_exec b.worldPins_rst h]
  unfold Block.execEdge at htick
  cases hdec : decode b.ir.val with
  | unmapped =>
    rw [hdec] at htick
    rw [State.runLatched_unmapped hdec]
    exact (Block.ReachesIn.of_tick_advance htick).mono (by decide)
  | instr i =>
    rw [hdec] at htick
    rw [State.runLatched_instr hdec]
    cases i with
    | halt | ldd | jmp | nop => exact (Block.ReachesIn.of_tick_advance htick).mono (by decide)
    | rot | sub =>
      have hwrite := Block.ReachesIn.of_tick_execWrite htick
      simp only [Block.writeBack, Block.readOperand_eq, Block.setMdr_ir, hdec] at hwrite
      exact hwrite
    | out =>
      by_cases hmax : b.aIsMax = true
      · rw [exec_out_max hmax]
        simp only [hmax, if_true] at htick
        exact (Block.ReachesIn.of_tick_advance htick).mono (by decide)
      · rw [exec_out_await hmax]
        simp only [hmax] at htick
        exact .of_tick_outWait htick
    | inp => exact .of_tick_inWait htick

theorem Block.fetch_reaches {b : Block cfg} (h : b.phase = .fetch) :
    b.ReachesIn 4 (State.runFetched ⟨cfg, b⟩) := by
  have htick : b.tick = .next (b.fetch.setPhase .exec) := by
    rw [Block.tick_of_not_waiting (by simp [h]) (by simp [h]), Block.edge_fetch b.worldPins_rst h]
  have hexec := Block.exec_reaches (b := b.fetch.setPhase .exec) rfl
  rw [State.runLatched_setPhase] at hexec
  exact .after_tick htick hexec

theorem Block.tick_idle {b : Block cfg} (h : b.phase = .idle) : b.tick = .next b.acceptEdge := by
  rw [Block.tick_of_not_waiting (by simp [h]) (by simp [h]), Block.edge_idle b.worldPins_rst b.worldPins_ldWe h,
    if_pos b.worldPins_stepReq]

theorem State.runFetched_setPhase (b : Block cfg) (p : Phase cfg) :
    State.runFetched ⟨cfg, b.setPhase p⟩ = State.runFetched ⟨cfg, b⟩ :=
  State.runLatched_setPhase b.fetch p

theorem Block.ready_reaches {b : Block cfg} (h : b.Ready) : b.ReachesIn 5 (step ⟨cfg, b⟩) := by
  obtain ⟨hidle, hrun⟩ := h
  have htick := Block.tick_idle hidle
  rw [Block.acceptEdge, if_pos hrun] at htick
  have hfetch := Block.fetch_reaches (b := b.accept.setPhase .fetch) rfl
  rw [State.runFetched_setPhase] at hfetch
  rw [step_ready ⟨hidle, hrun⟩]
  exact .after_tick htick hfetch

/-- In a terminal status the end of the step moves nothing and goes back to IDLE. -/
theorem Block.terminal_reaches {b : Block cfg} (hidle : b.phase = .idle) (hterminal : b.status ≠ .running) :
    b.ReachesIn 2 (step ⟨cfg, b⟩) := by
  have htick := Block.tick_idle hidle
  rw [Block.acceptEdge, if_neg hterminal] at htick
  have hfinish : b.accept.finish = b.accept :=
    (Block.finish_stopped (b := b.accept) hterminal).trans (Block.setPhase_eq_self (b := b.accept) hidle)
  rw [step_terminal hidle hterminal, ← hfinish]
  exact .of_tick_advance htick

/-! A machine found in the middle of a step carries it on from its micro-state (log 3). -/

theorem step_fetch {b : Block cfg} (h : b.phase = .fetch) : step ⟨cfg, b⟩ = State.runFetched ⟨cfg, b⟩ := by
  simp only [step, State.request, h]

theorem step_exec {b : Block cfg} (h : b.phase = .exec) : step ⟨cfg, b⟩ = State.runLatched ⟨cfg, b⟩ := by
  simp only [step, State.request, h]

theorem step_execWrite {b : Block cfg} (h : b.phase = .execWrite) :
    step ⟨cfg, b⟩ = .next ⟨cfg, b.writeBack.finish⟩ := by
  simp only [step, State.request, h, State.nextBlock]

theorem step_outWait {b : Block cfg} (h : b.phase = .outWait) : step ⟨cfg, b⟩ = .next ⟨cfg, b.awaitOut⟩ := by
  simp only [step, State.request, h, State.nextBlock]

theorem step_inWait {b : Block cfg} (h : b.phase = .inWait) : step ⟨cfg, b⟩ = .next ⟨cfg, b.awaitIn⟩ := by
  simp only [step, State.request, h, State.nextBlock]

theorem step_advance {b : Block cfg} (h : b.phase = .advance) : step ⟨cfg, b⟩ = .next ⟨cfg, b.finish⟩ := by
  simp only [step, State.request, h, State.nextBlock]

/-- Settles O35: from each micro-state the edges still to come do the rest of the step. -/
theorem clockEdgesCarryOutTheStep : Obligations.ClockEdgesCarryOutTheStep := by
  intro cfg b hclear
  show b.ReachesIn 5 (step ⟨cfg, b⟩)
  cases h : b.phase with
  | clear w => exact absurd h (hclear w)
  | idle =>
    by_cases hrun : b.status = .running
    · exact Block.ready_reaches ⟨h, hrun⟩
    · exact (Block.terminal_reaches h hrun).mono (by decide)
  | fetch => rw [step_fetch h]; exact (Block.fetch_reaches h).mono (by decide)
  | exec => rw [step_exec h]; exact (Block.exec_reaches h).mono (by decide)
  | execWrite => rw [step_execWrite h]; exact (Block.execWrite_reaches h).mono (by decide)
  | outWait => rw [step_outWait h]; exact (Block.outWait_reaches h).mono (by decide)
  | inWait => rw [step_inWait h]; exact (Block.inWait_reaches h).mono (by decide)
  | advance => rw [step_advance h]; exact (Block.advance_reaches h).mono (by decide)

end Sys2Proof.Machine
end

section
/-! PROOFS. The instructions that use no channel (42_instructions.md): the next state of each, what it leaves unchanged,
and the run through a memory of unmapped words. -/

namespace Sys2Proof.Machine

variable {cfg : Config}

/-! ## The meaning of an instruction is its work and then the end of the step -/

theorem exec_halt (b : Block cfg) : exec .halt ⟨cfg, b⟩ = .next ⟨cfg, b.haltWork.finish⟩ := rfl
theorem exec_ldd (b : Block cfg) : exec .ldd ⟨cfg, b⟩ = .next ⟨cfg, b.lddWork.finish⟩ := rfl
theorem exec_rot (b : Block cfg) : exec .rot ⟨cfg, b⟩ = .next ⟨cfg, b.readOperand.rotWriteBack.finish⟩ := rfl
theorem exec_jmp (b : Block cfg) : exec .jmp ⟨cfg, b⟩ = .next ⟨cfg, b.jmpWork.finish⟩ := rfl
theorem exec_nop (b : Block cfg) : exec .nop ⟨cfg, b⟩ = .next ⟨cfg, b.noWork.finish⟩ := rfl
theorem exec_sub (b : Block cfg) : exec .sub ⟨cfg, b⟩ = .next ⟨cfg, b.readOperand.subWriteBack.finish⟩ := rfl
theorem execUnmapped_eq (b : Block cfg) : execUnmapped ⟨cfg, b⟩ = .next ⟨cfg, b.noWork.finish⟩ := rfl

/-! ## What each instruction does

The work of every instruction but HALT leaves STATUS as it was, so from a running block the step ends in the advance. -/

/-- Settles O3: after the work STATUS is no longer running, so the end of the step moves nothing. -/
theorem haltStopsWithoutAdvance : Obligations.HaltStopsWithoutAdvance := by
  refine ⟨rfl, fun cfg b _ => ?_⟩
  rw [exec_halt, Block.finish_stopped (b := b.haltWork) nofun]
  rfl

/-- Settles O4: the advance starts from the D that the work has loaded. -/
theorem lddLoadsDThroughItself : Obligations.LddLoadsDThroughItself := by
  refine ⟨rfl, fun cfg b hrun => ⟨?_, fun hmax => hmax ▸ Rau.succ_max⟩⟩
  rw [exec_ldd, Block.finish_running (b := b.lddWork) hrun]
  rfl

/-- Settles O5: the operand is latched before the one result goes to A and to the word at D. -/
theorem rotRotatesTheWordAtD : Obligations.RotRotatesTheWordAtD := by
  refine ⟨rfl, fun cfg b hrun => ?_⟩
  rw [exec_rot, Block.finish_running (b := b.readOperand.rotWriteBack) hrun]
  rfl

/-- Settles O6: the advance starts from the C that the work has loaded. -/
theorem jmpLandsOnePastTheStoredWord : Obligations.JmpLandsOnePastTheStoredWord := by
  refine ⟨rfl, fun cfg b hrun => ⟨?_, fun hmax => hmax ▸ Rau.succ_max⟩⟩
  rw [exec_jmp, Block.finish_running (b := b.jmpWork) hrun]
  rfl

/-- Settles O7: there is no work, only the advance. -/
theorem nopOnlyAdvances : Obligations.NopOnlyAdvances := by
  refine ⟨rfl, fun cfg b hrun => ⟨?_, fun hmax => hmax ▸ Rau.succ_max⟩⟩
  rw [exec_nop, Block.finish_running (b := b.noWork) hrun]
  rfl

/-- Settles O8; its corners are the laws of dsub. -/
theorem subDigitSubtractsTheWordAtD : Obligations.SubDigitSubtractsTheWordAtD := by
  refine ⟨rfl, fun cfg b hrun => ⟨?_, fun heq => ?_, fun hzero => ?_, Rau.dsub_dsub_cancel _ _⟩⟩
  · rw [exec_sub, Block.finish_running (b := b.readOperand.subWriteBack) hrun]
    rfl
  · rw [← heq, Rau.dsub_self]
  · rw [hzero, Rau.dsub_zero]

/-! ## What each instruction leaves unchanged -/

/-- Settles O14, by the instruction: its work writes at most STATUS (HALT), or MDR with D (LDD) or C (JMP). -/
theorem registerInstructionsFrame : Obligations.RegisterInstructionsFrame := by
  intro cfg b b' i hi h
  rcases hi with rfl | rfl | rfl | rfl
  · cases (exec_halt b).symm.trans h
    simp [Block.haltWork, Block.finish_c, Block.finish_d]
  · cases (exec_ldd b).symm.trans h
    simp [Block.lddWork]
  · cases (exec_jmp b).symm.trans h
    simp [Block.jmpWork]
  · cases (exec_nop b).symm.trans h
    simp [Block.noWork]

/-- The compute-and-store path of ROT and SUB, with the end of the step: it writes A, MDR and the word at D, and A and
that word agree (40_ring_unit.md R110). -/
theorem Block.finish_storeResult_frame (b : Block cfg) (z : cfg.Elem) :
    let b' := (b.readOperand.storeResult z).finish
    b'.status = b.status ∧ b'.loadPhase = b.loadPhase ∧ b'.ir = b.ir ∧ b'.chan = b.chan ∧
      (∀ addr, addr ≠ b.d → b'.mem.read addr = b.mem.read addr) ∧ (b.mem.wf → b'.mem.read b.d = b'.a) := by
  have hmem : (b.readOperand.storeResult z).finish.mem = b.mem.write b.d z := by simp
  have ha : (b.readOperand.storeResult z).finish.a = z := by simp
  refine ⟨by simp, by simp, by simp, by simp, fun addr haddr => ?_, fun hwf => ?_⟩
  · rw [hmem, Memory.read_write_other _ _ haddr]
  · rw [hmem, ha, Memory.read_write_same hwf]

/-- Settles O15: both instructions take the one compute-and-store path, each with its own result. -/
theorem storingInstructionsFrame : Obligations.StoringInstructionsFrame := by
  intro cfg b b' i hi h
  rcases hi with rfl | rfl
  · cases (exec_rot b).symm.trans h
    exact Block.finish_storeResult_frame b _
  · cases (exec_sub b).symm.trans h
    exact Block.finish_storeResult_frame b _

/-! ## An unmapped word -/

/-- A ready block that is one no-op further: C and D have advanced, the request has cleared LOADPHASE, and IR holds the
word fetched. -/
def Block.afterNoOp (b : Block cfg) : Block cfg :=
  { b with c := Rau.succ b.c, d := Rau.succ b.d, loadPhase := false, ir := b.mem.read b.c }

theorem step_unmapped {b : Block cfg} (h : b.Ready) (hdec : decode (b.mem.read b.c).val = .unmapped) :
    step ⟨cfg, b⟩ = .next ⟨cfg, b.afterNoOp⟩ := by
  obtain ⟨hidle, hrun⟩ := h
  have hfinish : b.accept.fetch.noWork.finish = b.afterNoOp :=
    (Block.finish_running (b := b.accept.fetch.noWork) hrun).trans (Block.setPhase_eq_self (b := b.afterNoOp) hidle)
  rw [step_ready_fetched ⟨hidle, hrun⟩, State.runLatched_unmapped hdec, execUnmapped_eq, hfinish]

/-- Settles O9: a word that encodes no instruction decodes to UNMAPPED. -/
theorem unmappedWordOnlyAdvances : Obligations.UnmappedWordOnlyAdvances := fun _ _ hready hword =>
  step_unmapped hready (decode_eq_unmapped_iff.mpr hword)

/-- One advance and then `n` more are `n` + 1, modulo END. -/
theorem Rau.succ_val_add_mod {c : RauConfig} (x : RingElem c) (n : Nat) :
    ((Rau.succ x).val + n) % c.modulus = (x.val + (n + 1)) % c.modulus := by
  rw [Rau.succ, RingElem.reduce_val, Nat.mod_add_mod, Nat.add_assoc, Nat.add_comm 1 n]

/-- Settles O29, by induction on the steps: a no-op changes no word of memory, so the next word is unmapped too. -/
theorem unmappedMemoryCyclesForEver : Obligations.UnmappedMemoryCyclesForEver := by
  intro cfg b n hready hunmapped
  induction n generalizing b with
  | zero =>
    exact ⟨b, rfl, hready, rfl, rfl, rfl, (Nat.mod_eq_of_lt b.c.isLt).symm, (Nat.mod_eq_of_lt b.d.isLt).symm⟩
  | succ n ih =>
    obtain ⟨b', hrun, hready', ha, hmem, hchan, hc, hd⟩ := ih b.afterNoOp hready hunmapped
    refine ⟨b', ?_, hready', ha, hmem, hchan, ?_, ?_⟩
    · rw [core_run_succ n (step_unmapped hready (hunmapped b.c)), hrun]
    · rw [hc, ← Rau.succ_val_add_mod]; rfl
    · rw [hd, ← Rau.succ_val_add_mod]; rfl

end Sys2Proof.Machine
end

section
/-! PROOFS. The byte channels (43_io.md): the next state of OUT and IN for each answer, the wait on a silent channel, what
the two instructions leave unchanged, and the handshakes at the pins. -/

namespace Sys2Proof.Machine

variable {cfg : Config}

/-! ## OUT and IN by the sample of their port -/

theorem exec_out_answered {b : Block cfg} {ans : OutAnswer} (hmax : b.a ≠ RingElem.max cfg.toRauConfig)
    (hs : b.chan.outSample = some ans) : exec .out ⟨cfg, b⟩ = .next ⟨cfg, (b.takeOut.outAnswered ans).finish⟩ := by
  rw [exec_out_await (mt Block.aIsMax_eq_true_iff.mp hmax), Block.awaitOut_answered hs]

theorem exec_out_silent {b : Block cfg} (hmax : b.a ≠ RingElem.max cfg.toRauConfig)
    (hs : b.chan.outSample = none) : exec .out ⟨cfg, b⟩ = .next ⟨cfg, b.takeOut.setPhase .outWait⟩ := by
  rw [exec_out_await (mt Block.aIsMax_eq_true_iff.mp hmax), Block.awaitOut_silent hs]

theorem exec_inp_answered {b : Block cfg} {ans : InAnswer} (hs : b.chan.inSample = some ans) :
    exec .inp ⟨cfg, b⟩ = .next ⟨cfg, (b.takeIn.inAnswered ans).finish⟩ := by
  rw [exec_inp, Block.awaitIn_answered hs]

theorem exec_inp_silent {b : Block cfg} (hs : b.chan.inSample = none) :
    exec .inp ⟨cfg, b⟩ = .next ⟨cfg, b.takeIn.setPhase .inWait⟩ := by
  rw [exec_inp, Block.awaitIn_silent hs]

/-- Settles O10: Ok leaves STATUS running, so the step ends in the advance; MAX and a failure do not. -/
theorem outWritesAByteOrEndsTheRun : Obligations.OutWritesAByteOrEndsTheRun := by
  refine ⟨rfl, fun cfg b hrun => ⟨fun hmax => ?_, fun hmax hs => ?_, fun k hmax hs => ?_⟩⟩
  · rw [exec_out_max (Block.aIsMax_eq_true_iff.mpr hmax), Block.finish_stopped (b := b.outEofWork) nofun]
    rfl
  · rw [exec_out_answered hmax hs, Block.finish_running (b := b.takeOut.outAnswered .ok) hrun, ← outByte_eq_ofNat_mod]
    exact ⟨_, rfl, rfl⟩
  · rw [exec_out_answered hmax hs, Block.finish_stopped (b := b.takeOut.outAnswered (.failure k)) nofun]
    exact ⟨_, rfl, rfl⟩

/-- Settles O11: a byte and end of stream leave STATUS running, so the step ends in the advance; a failure does not. -/
theorem inReadsAByteOrTheSentinel : Obligations.InReadsAByteOrTheSentinel := by
  refine ⟨rfl, fun cfg b hrun => ⟨fun x hs => ?_, fun hs => ?_, fun k hs => ?_⟩⟩
  · rw [exec_inp_answered hs, Block.finish_running (b := b.takeIn.inAnswered (.byte x)) hrun]
    exact ⟨inByte cfg x, _, rfl, rfl⟩
  · rw [exec_inp_answered hs, Block.finish_running (b := b.takeIn.inAnswered .endOfStream) hrun]
    exact ⟨_, rfl⟩
  · rw [exec_inp_answered hs, Block.finish_stopped (b := b.takeIn.inAnswered (.failure k)) nofun]
    exact ⟨_, rfl⟩

/-- Settles O13: silence moves only the sample and the micro-state, and a wait samples the port as the instruction
does. -/
theorem silentChannelKeepsTheCoreWaiting : Obligations.SilentChannelKeepsTheCoreWaiting := by
  intro cfg b _
  refine ⟨exec_out_silent, exec_inp_silent, fun hwait hmax => ?_, fun hwait => ?_⟩
  · rw [step_outWait hwait, exec_out_await (mt Block.aIsMax_eq_true_iff.mp hmax)]
  · rw [step_inWait hwait, exec_inp]

/-! ## What OUT and IN leave unchanged -/

/-- Coming to rest writes none of these registers. -/
theorem Block.Rests.registers {w b' : Block cfg} (h : w.Rests b') :
    b'.a = w.a ∧ b'.loadPhase = w.loadPhase ∧ b'.ir = w.ir ∧ b'.mdr = w.mdr := by
  rcases h with rfl | ⟨p, -, rfl⟩ <;> simp

/-- Only a step that has ended in IDLE, still running, moves the pointers on (41_execution_core.md R136, R137). -/
theorem Block.Rests.pointers_kept {w b' : Block cfg} (h : w.Rests b') (hb : b'.status ≠ .running ∨ b'.phase ≠ .idle) :
    b'.c = w.c ∧ b'.d = w.d := by
  rcases h with rfl | ⟨p, -, rfl⟩
  · have hstopped : w.finish.status ≠ .running := hb.resolve_right (not_not_intro w.finish_phase)
    rw [Block.finish_status] at hstopped
    rw [Block.finish_stopped hstopped]
    exact ⟨rfl, rfl⟩
  · exact ⟨rfl, rfl⟩

/-- What the execute phase of a channel instruction `i` leaves unchanged: `w` is the block it leaves from `b`. -/
structure Block.ChannelWork (i : Instr) (b w : Block cfg) : Prop where
  c : w.c = b.c
  d : w.d = b.d
  mem : w.mem = b.mem
  loadPhase : w.loadPhase = b.loadPhase
  ir : w.ir = b.ir
  mdr : w.mdr = b.mdr
  out : i = .out → w.a = b.a ∧ w.chan.inSamples = b.chan.inSamples ∧ w.chan.inTaken = b.chan.inTaken
  inp : i = .inp → w.chan.outSamples = b.chan.outSamples ∧ w.chan.outTaken = b.chan.outTaken ∧
    w.chan.written = b.chan.written

/-- OUT with A = MAX writes STATUS alone. -/
theorem Block.outEofWork_channelWork (b : Block cfg) : Block.ChannelWork .out b b.outEofWork :=
  ⟨rfl, rfl, rfl, rfl, rfl, rfl, fun _ => ⟨rfl, rfl, rfl⟩, nofun⟩

theorem Block.takeOut_channelWork (b : Block cfg) : Block.ChannelWork .out b b.takeOut :=
  ⟨rfl, rfl, rfl, rfl, rfl, rfl, fun _ => ⟨rfl, rfl, rfl⟩, nofun⟩

theorem Block.takeIn_channelWork (b : Block cfg) : Block.ChannelWork .inp b b.takeIn :=
  ⟨rfl, rfl, rfl, rfl, rfl, rfl, nofun, fun _ => ⟨rfl, rfl, rfl⟩⟩

/-- Ok adds the byte written, a failure writes STATUS. -/
theorem Block.outAnswered_channelWork (b : Block cfg) (ans : OutAnswer) :
    Block.ChannelWork .out b (b.takeOut.outAnswered ans) := by
  cases ans <;> exact ⟨rfl, rfl, rfl, rfl, rfl, rfl, fun _ => ⟨rfl, rfl, rfl⟩, nofun⟩

/-- Every answer writes A, a failure STATUS too. -/
theorem Block.inAnswered_channelWork (b : Block cfg) (ans : InAnswer) :
    Block.ChannelWork .inp b (b.takeIn.inAnswered ans) := by
  cases ans <;> exact ⟨rfl, rfl, rfl, rfl, rfl, rfl, nofun, fun _ => ⟨rfl, rfl, rfl⟩⟩

theorem exec_out_channelWork {b b' : Block cfg} (h : exec .out ⟨cfg, b⟩ = .next ⟨cfg, b'⟩) :
    ∃ w, Block.ChannelWork .out b w ∧ w.Rests b' := by
  by_cases hmax : b.a = RingElem.max cfg.toRauConfig
  · cases (exec_out_max (Block.aIsMax_eq_true_iff.mpr hmax)).symm.trans h
    exact ⟨_, b.outEofWork_channelWork, .inl rfl⟩
  · cases hs : b.chan.outSample with
    | none =>
      cases (exec_out_silent hmax hs).symm.trans h
      exact ⟨_, b.takeOut_channelWork, .inr ⟨.outWait, nofun, rfl⟩⟩
    | some ans =>
      cases (exec_out_answered hmax hs).symm.trans h
      exact ⟨_, b.outAnswered_channelWork ans, .inl rfl⟩

theorem exec_inp_channelWork {b b' : Block cfg} (h : exec .inp ⟨cfg, b⟩ = .next ⟨cfg, b'⟩) :
    ∃ w, Block.ChannelWork .inp b w ∧ w.Rests b' := by
  cases hs : b.chan.inSample with
  | none =>
    cases (exec_inp_silent hs).symm.trans h
    exact ⟨_, b.takeIn_channelWork, .inr ⟨.inWait, nofun, rfl⟩⟩
  | some ans =>
    cases (exec_inp_answered hs).symm.trans h
    exact ⟨_, b.inAnswered_channelWork ans, .inl rfl⟩

/-- Settles O16: execute leaves all of this, and coming to rest moves at most C and D, at the end of a running step. -/
theorem channelInstructionsFrame : Obligations.ChannelInstructionsFrame := by
  intro cfg b b' i hi h
  have hwork : ∃ w, Block.ChannelWork i b w ∧ w.Rests b' := by
    rcases hi with rfl | rfl
    · exact exec_out_channelWork h
    · exact exec_inp_channelWork h
  obtain ⟨w, hw, hrests⟩ := hwork
  obtain ⟨ha, hload, hir, hmdr⟩ := hrests.registers
  rw [ha, hload, hir, hmdr, hrests.mem, hrests.chan, ← hw.c, ← hw.d]
  exact ⟨fun addr => by rw [hw.mem], hw.loadPhase, hw.ir, hw.mdr, hw.out, hw.inp, hrests.pointers_kept⟩

/-! ## The handshakes at the pins -/

/-- A cause of CAUSE_W bits, as the pins carry it, is kept whole (10_state.md R32). -/
theorem causeOf_toNat_self (k : BitVec cfg.causeWidth) : causeOf cfg k.toNat = k := by simp [causeOf]

section Pins

variable {b : Block cfg} {p : PinsIn cfg}

theorem Block.pins_outWait (h : b.phase = .outWait) : b.pins.outReq = true ∧ b.pins.outData = outByte b.a := by
  simp [Block.pins, h]

theorem Block.pins_inWait (h : b.phase = .inWait) : b.pins.inReq = true := by simp [Block.pins, h]

theorem Block.outWaitEdge_of_not_valid (h : p.outValid = false) : b.outWaitEdge p = b := by
  simp [Block.outWaitEdge, h]

theorem Block.outWaitEdge_of_ok (h : p.outValid = true) (hfail : p.outFail = false) :
    b.outWaitEdge p = (b.outAnswered .ok).setPhase .advance := by
  simp [Block.outWaitEdge, PinsIn.outAnswer, h, hfail]

theorem Block.outWaitEdge_of_fail (h : p.outValid = true) (hfail : p.outFail = true) :
    b.outWaitEdge p = (b.setStatus (.writeError p.outCause)).setPhase .advance := by
  simp [Block.outWaitEdge, PinsIn.outAnswer, h, hfail, Block.outAnswered_failure, causeOf_toNat_self]

theorem Block.inWaitEdge_of_not_valid (h : p.inValid = false) : b.inWaitEdge p = .next b := by
  simp [Block.inWaitEdge, h]

theorem Block.inWaitEdge_of_answer {ans : InAnswer} (h : p.inValid = true) (hans : p.inAnswer? = some ans) :
    b.inWaitEdge p = .next ((b.inAnswered ans).setPhase .advance) := by
  simp [Block.inWaitEdge, h, hans]

theorem Block.inWaitEdge_of_no_answer (h : p.inValid = true) (hans : p.inAnswer? = none) :
    b.inWaitEdge p = .refused .inKindReserved := by
  simp [Block.inWaitEdge, h, hans]

theorem PinsIn.inAnswer?_kind_zero (h : p.inKind = 0#2) : p.inAnswer? = some (.byte p.inData) := by
  simp [PinsIn.inAnswer?, h]
theorem PinsIn.inAnswer?_kind_one (h : p.inKind = 1#2) : p.inAnswer? = some .endOfStream := by
  simp [PinsIn.inAnswer?, h]
theorem PinsIn.inAnswer?_kind_two (h : p.inKind = 2#2) : p.inAnswer? = some (.failure p.inCause.toNat) := by
  simp [PinsIn.inAnswer?, h]
theorem PinsIn.inAnswer?_kind_three (h : p.inKind = 3#2) : p.inAnswer? = none := by
  simp [PinsIn.inAnswer?, h]

end Pins

/-- Settles O40: in each wait, the edge for each thing the pins can answer. -/
theorem channelPinsHandshake : Obligations.ChannelPinsHandshake := by
  intro cfg b p hrst
  constructor
  · intro hwait
    obtain ⟨hreq, hdata⟩ := Block.pins_outWait hwait
    rw [Block.edge_outWait hrst hwait, ← outByte_eq_ofNat_mod]
    refine ⟨hreq, hdata, fun hvalid => ?_, fun hvalid hok => ?_, fun hvalid hfail => ?_⟩
    · rw [Block.outWaitEdge_of_not_valid hvalid]
    · rw [Block.outWaitEdge_of_ok hvalid hok]
      rfl
    · rw [Block.outWaitEdge_of_fail hvalid hfail]
      rfl
  · intro hwait
    rw [Block.edge_inWait hrst hwait]
    refine ⟨Block.pins_inWait hwait, Block.inWaitEdge_of_not_valid, fun hvalid hkind => ?_, fun hvalid hkind => ?_,
      fun hvalid hkind => ?_, fun hvalid hkind => ?_⟩
    · exact ⟨inByte cfg p.inData, rfl, Block.inWaitEdge_of_answer hvalid (PinsIn.inAnswer?_kind_zero hkind)⟩
    · exact Block.inWaitEdge_of_answer hvalid (PinsIn.inAnswer?_kind_one hkind)
    · rw [Block.inWaitEdge_of_answer hvalid (PinsIn.inAnswer?_kind_two hkind), Block.inAnswered_failure,
        causeOf_toNat_self]
      rfl
    · exact Block.inWaitEdge_of_no_answer hvalid (PinsIn.inAnswer?_kind_three hkind)

end Sys2Proof.Machine
end

section
/-! PROOFS. Terminal events and the records that every step and every clock edge keep (60_exceptions.md). What one edge
can do is said once, and an invariant of the edges is one of `step`, which the edges carry out. -/

namespace Sys2Proof.Machine

variable {cfg : Config}

/-! ## What one clock edge can do -/

/-- What the load port leaves in IDLE: the block as it was, or in the load phase one target written. -/
def Block.Loaded (b b₁ : Block cfg) : Prop :=
  b₁ = b ∨ b.loadPhase = true ∧ ∃ (t : LoadTarget cfg) (v : cfg.Elem), b₁ = b.loadTo t v

/-- Every block that one edge leads to, whatever the pins, is one of these (41_execution_core.md R143 to R145;
70_reset_and_hazards.md R230). -/
inductive Block.EdgeTo (b : Block cfg) : Block cfg → Prop
  | reset : b.EdgeTo b.resetEdge
  | cleared {next : cfg.Elem} (h : b.phase = .clear next) : b.EdgeTo (b.clearEdge next)
  | loaded {b₁ : Block cfg} (h : b.phase = .idle) (hload : b.Loaded b₁) : b.EdgeTo b₁
  | accepted {b₁ : Block cfg} (h : b.phase = .idle) (hload : b.Loaded b₁) : b.EdgeTo b₁.acceptEdge
  | fetched (h : b.phase = .fetch) : b.EdgeTo (b.fetch.setPhase .exec)
  | executed (h : b.phase = .exec) : b.EdgeTo b.execEdge
  | wroteBack (h : b.phase = .execWrite) : b.EdgeTo (b.writeBack.setPhase .advance)
  | waits : b.EdgeTo b
  | outAnswered (h : b.phase = .outWait) (ans : OutAnswer) : b.EdgeTo ((b.outAnswered ans).setPhase .advance)
  | inAnswered (h : b.phase = .inWait) (ans : InAnswer) : b.EdgeTo ((b.inAnswered ans).setPhase .advance)
  | finished (h : b.phase = .advance) : b.EdgeTo b.finish

section Edge

variable {b b' : Block cfg} {p : PinsIn cfg}

theorem Block.edge_reset (hrst : p.rst = true) : b.edge p = .next b.resetEdge := by
  simp only [Block.edge, hrst, if_true]

theorem Block.edge_clear {next : cfg.Elem} (hrst : p.rst = false) (h : b.phase = .clear next) :
    b.edge p = .next (b.clearEdge next) := by
  simp only [Block.edge, hrst, h, Bool.false_eq_true, if_false]

theorem Block.edge_eq_idleEdge (hrst : p.rst = false) (h : b.phase = .idle) : b.edge p = b.idleEdge p := by
  simp only [Block.edge, hrst, h, Bool.false_eq_true, if_false]

theorem Block.loadEdge_loaded (h : b.loadEdge p = .next b') : b.Loaded b' := by
  unfold Block.loadEdge Block.loadCycle at h
  split_ifs at h with hwe hopen
  · have hload : b.loadPhase = true := Bool.and_elim_left hopen
    split at h
    · next e v _ _ => cases h; exact .inr ⟨hload, loadTarget p.ldSel e, v, rfl⟩
    · cases h
  · cases h; exact .inl rfl
  · cases h; exact .inl rfl

theorem Block.idleEdge_edgeTo (hidle : b.phase = .idle) (h : b.idleEdge p = .next b') : b.EdgeTo b' := by
  unfold Block.idleEdge at h
  split at h
  · next b₁ hload =>
    cases h
    split_ifs with hreq
    · exact .accepted hidle (Block.loadEdge_loaded hload)
    · exact .loaded hidle (Block.loadEdge_loaded hload)
  · cases h
  · cases h

theorem Block.outWaitEdge_edgeTo (hwait : b.phase = .outWait) : b.EdgeTo (b.outWaitEdge p) := by
  unfold Block.outWaitEdge
  split_ifs with hvalid
  · exact .outAnswered hwait p.outAnswer
  · exact .waits

theorem Block.inWaitEdge_edgeTo (hwait : b.phase = .inWait) (h : b.inWaitEdge p = .next b') : b.EdgeTo b' := by
  unfold Block.inWaitEdge at h
  split_ifs at h with hvalid
  · split at h
    · next ans _ => cases h; exact .inAnswered hwait ans
    · cases h
  · cases h; exact .waits

theorem Block.edge_edgeTo (h : b.edge p = .next b') : b.EdgeTo b' := by
  cases hrst : p.rst with
  | true => cases (Block.edge_reset hrst).symm.trans h; exact .reset
  | false =>
    cases hp : b.phase with
    | clear next => cases (Block.edge_clear hrst hp).symm.trans h; exact .cleared hp
    | idle => exact Block.idleEdge_edgeTo hp ((Block.edge_eq_idleEdge hrst hp).symm.trans h)
    | fetch => cases (Block.edge_fetch hrst hp).symm.trans h; exact .fetched hp
    | exec => cases (Block.edge_exec hrst hp).symm.trans h; exact .executed hp
    | execWrite => cases (Block.edge_execWrite hrst hp).symm.trans h; exact .wroteBack hp
    | outWait => cases (Block.edge_outWait hrst hp).symm.trans h; exact Block.outWaitEdge_edgeTo hp
    | inWait => exact Block.inWaitEdge_edgeTo hp ((Block.edge_inWait hrst hp).symm.trans h)
    | advance => cases (Block.edge_advance hrst hp).symm.trans h; exact .finished hp

end Edge

/-! ## From the edges to the step -/

/-- A property that every edge keeps, whatever the pins and the record of the channels, and that the rest of CLEAR
keeps. -/
structure Block.Invariant (P : Block cfg → Prop) : Prop where
  edge : ∀ {b b' : Block cfg}, P b → b.EdgeTo b' → P b'
  setChan : ∀ {b : Block cfg} (ch : Channels), P b → P (b.setChan ch)
  clearRest : ∀ {b : Block cfg} {next : cfg.Elem}, b.phase = .clear next → P b → P (b.clearRest next)

theorem Block.sampled_eq_setChan (b : Block cfg) : ∃ ch, b.sampled = b.setChan ch := by
  unfold Block.sampled
  split
  · exact ⟨_, Block.takeIn_eq b⟩
  · exact ⟨_, Block.takeOut_eq b⟩
  · exact ⟨b.chan, rfl⟩

theorem step_clear {b : Block cfg} {next : cfg.Elem} (h : b.phase = .clear next) :
    step ⟨cfg, b⟩ = .next ⟨cfg, b.clearRest next⟩ := by
  simp only [step, State.request, h, State.nextBlock]

section Invariant

variable {P : Block cfg → Prop} (hP : Block.Invariant P)
include hP

theorem Block.Invariant.tick {b b' : Block cfg} (hb : P b) (h : b.tick = .next b') : P b' := by
  obtain ⟨ch, hch⟩ := b.sampled_eq_setChan
  rw [Block.tick, hch] at h
  exact hP.edge (hP.setChan ch hb) (Block.edge_edgeTo h)

theorem Block.Invariant.ticks {n : Nat} {b b' : Block cfg} (hb : P b) (h : Block.ticks n b = .next b') : P b' := by
  induction n generalizing b with
  | zero => cases h; exact hb
  | succ n ih =>
    cases htick : b.tick with
    | next b₁ => exact ih (hP.tick hb htick) ((Block.ticks_succ n htick).symm.trans h)
    | fault r => exact nomatch r
    | refused r => simp [Block.ticks, htick] at h

/-- Outside CLEAR the step is a run of edges (41_execution_core.md R145); in CLEAR it is the rest of CLEAR. -/
theorem Block.Invariant.step {b b' : Block cfg} (hb : P b) (h : step ⟨cfg, b⟩ = .next ⟨cfg, b'⟩) : P b' := by
  by_cases hclear : ∃ next, b.phase = .clear next
  · obtain ⟨next, hnext⟩ := hclear
    cases (step_clear hnext).symm.trans h
    exact hP.clearRest hnext hb
  · obtain ⟨n, b'', -, -, hticks, hstep, -⟩ := clockEdgesCarryOutTheStep cfg b (not_exists.mp hclear)
    cases hstep.symm.trans h
    exact hP.ticks hb hticks

end Invariant

/-! ## The records of a legal block, by the micro-state -/

section Records

variable {b : Block cfg}

theorem Block.statusRecord_of_running (h : b.status = .running) : b.StatusRecord := by
  simp only [Block.StatusRecord, h]

theorem Block.phaseRecord_clear {next : cfg.Elem} (h : b.phase = .clear next) :
    b.PhaseRecord ↔ b.status = .running ∧ b.loadPhase = true := by
  simp only [Block.PhaseRecord, h]

theorem Block.phaseRecord_idle (h : b.phase = .idle) : b.PhaseRecord := by
  simp only [Block.PhaseRecord, h]

theorem Block.phaseRecord_fetch (h : b.phase = .fetch) : b.PhaseRecord ↔ b.status = .running := by
  simp only [Block.PhaseRecord, h]

theorem Block.phaseRecord_exec (h : b.phase = .exec) :
    b.PhaseRecord ↔ b.status = .running ∧ b.ir = b.mem.read b.c := by
  simp only [Block.PhaseRecord, h]

theorem Block.phaseRecord_execWrite (h : b.phase = .execWrite) :
    b.PhaseRecord ↔ b.status = .running ∧ b.ir = b.mem.read b.c ∧ b.mdr = b.mem.read b.d ∧
      (b.FetchIs .rot ∨ b.FetchIs .sub) := by
  simp only [Block.PhaseRecord, h]

theorem Block.phaseRecord_outWait (h : b.phase = .outWait) :
    b.PhaseRecord ↔ b.status = .running ∧ b.FetchIs .out ∧ b.a ≠ RingElem.max cfg.toRauConfig := by
  simp only [Block.PhaseRecord, h]

theorem Block.phaseRecord_inWait (h : b.phase = .inWait) :
    b.PhaseRecord ↔ b.status = .running ∧ b.FetchIs .inp := by
  simp only [Block.PhaseRecord, h]

/-- Nothing of a legal block speaks of the channels. -/
theorem Block.Legal.setChan (h : b.Legal) (ch : Channels) : (b.setChan ch).Legal := ⟨h.mem, h.status, h.phase, h.load⟩

/-- While STATUS is running in CLEAR or IDLE, LOADPHASE may be 1. -/
theorem Block.legal_of_loading (hmem : b.mem.wf) (hrun : b.status = .running) (hload : b.loadPhase = true)
    (hphase : b.phase = .idle ∨ ∃ next, b.phase = .clear next) : b.Legal where
  mem := hmem
  status := Block.statusRecord_of_running hrun
  phase := by
    rcases hphase with hp | ⟨next, hp⟩
    · exact Block.phaseRecord_idle hp
    · exact (Block.phaseRecord_clear hp).mpr ⟨hrun, hload⟩
  load _ := by rcases hphase with hp | ⟨next, hp⟩ <;> simp only [hp, hrun, and_self]

end Records

/-! ## Inside a step -/

/-- A block in the middle of a step, or at the end of one: legal but for its micro-state, and LOADPHASE is 0. -/
structure Block.InStep (b : Block cfg) : Prop where
  mem : b.mem.wf
  status : b.StatusRecord
  load : b.loadPhase = false

section InStep

variable {b : Block cfg}

theorem Block.InStep.legal (h : b.InStep) (hp : b.PhaseRecord) : b.Legal :=
  ⟨h.mem, h.status, hp, fun hload => absurd hload (by simp [h.load])⟩

theorem Block.inStep_of_running (hmem : b.mem.wf) (hrun : b.status = .running) (hload : b.loadPhase = false) :
    b.InStep := ⟨hmem, Block.statusRecord_of_running hrun, hload⟩

theorem Block.InStep.setPhase (h : b.InStep) (p : Phase cfg) : (b.setPhase p).InStep := ⟨h.mem, h.status, h.load⟩

theorem Block.InStep.readOperand (h : b.InStep) : b.readOperand.InStep := ⟨h.mem, h.status, h.load⟩

theorem Block.InStep.fetch (h : b.InStep) : b.fetch.InStep := ⟨h.mem, h.status, h.load⟩

/-- ADVANCE asks for no record of its own. -/
theorem Block.InStep.legal_advance (h : b.InStep) : (b.setPhase .advance).Legal := (h.setPhase .advance).legal trivial

/-- In every micro-state but CLEAR and IDLE, LOADPHASE is 0 (10_state.md R34 (a)). -/
theorem Block.Legal.inStep (h : b.Legal) {p : Phase cfg} (hp : b.phase = p) (hidle : p ≠ .idle)
    (hclear : ∀ next, p ≠ .clear next) : b.InStep := by
  subst hp
  refine ⟨h.mem, h.status, Bool.eq_false_iff.mpr fun hload => ?_⟩
  obtain ⟨-, hphase⟩ := h.load hload
  split at hphase
  · next word hp => exact hclear word hp
  · next hp => exact hidle hp
  · exact hphase

/-- An accepted request clears LOADPHASE (41_execution_core.md R143). -/
theorem Block.Legal.accept_inStep (h : b.Legal) : b.accept.InStep := ⟨h.mem, h.status, rfl⟩

/-- The end of a step keeps the record of a terminal status, since then neither C nor D moves (R137). -/
theorem Block.InStep.finish_legal (h : b.InStep) : b.finish.Legal := by
  refine Block.InStep.legal ?_ (Block.phaseRecord_idle b.finish_phase)
  by_cases hrun : b.status = .running
  · rw [Block.finish_running hrun]
    exact Block.inStep_of_running h.mem hrun h.load
  · rw [Block.finish_stopped hrun]
    exact ⟨h.mem, h.status, h.load⟩

/-- A failed write leaves A, which is not MAX, and C at the OUT (60_exceptions.md R201). -/
theorem Block.InStep.outAnswered (h : b.InStep) (hout : b.FetchIs .out)
    (hmax : b.a ≠ RingElem.max cfg.toRauConfig) (ans : OutAnswer) : (b.outAnswered ans).InStep := by
  cases ans with
  | ok => exact ⟨h.mem, h.status, h.load⟩
  | failure k => exact ⟨h.mem, ⟨hout, hmax⟩, h.load⟩

variable (h : b.InStep) (hrun : b.status = .running)
include h hrun

theorem Block.InStep.storeResult (z : cfg.Elem) : (b.storeResult z).InStep :=
  Block.inStep_of_running (b := b.storeResult z) (Memory.write_wf h.mem b.d z) hrun h.load

/-- The write-back of ROT or SUB stores its result; no other word has one. -/
theorem Block.InStep.writeBack : b.writeBack.InStep := by
  unfold Block.writeBack
  split
  · exact h.storeResult hrun _
  · exact h.storeResult hrun _
  · exact h

/-- A failed read leaves A at MAX and C at the IN (60_exceptions.md R201). -/
theorem Block.InStep.inAnswered (hinp : b.FetchIs .inp) (ans : InAnswer) : (b.inAnswered ans).InStep := by
  cases ans with
  | byte x => exact Block.inStep_of_running (b := b.setA _) h.mem hrun h.load
  | endOfStream => exact Block.inStep_of_running (b := b.setA _) h.mem hrun h.load
  | failure k => exact ⟨h.mem, ⟨hinp, rfl⟩, h.load⟩

/-- The first EXEC cycle, by the word that IR latched from C. -/
theorem Block.InStep.execEdge_legal (hir : b.ir = b.mem.read b.c) : b.execEdge.Legal := by
  unfold Block.execEdge
  cases hdec : decode b.ir.val with
  | unmapped => exact h.legal_advance
  | instr i =>
    have hfetch : b.FetchIs i := (congrArg Fin.val hir).symm.trans (decode_instr hdec)
    cases i with
    | halt => exact Block.InStep.legal_advance (b := b.haltWork) ⟨h.mem, hfetch, h.load⟩
    | ldd => exact (Block.inStep_of_running (b := b.lddWork) h.mem hrun h.load).legal_advance
    | rot => exact (h.readOperand.setPhase .execWrite).legal ⟨hrun, hir, rfl, .inl hfetch⟩
    | jmp => exact (Block.inStep_of_running (b := b.jmpWork) h.mem hrun h.load).legal_advance
    | nop => exact h.legal_advance
    | out =>
      dsimp only
      split_ifs with hmax
      · have ha := Block.aIsMax_eq_true_iff.mp hmax
        exact Block.InStep.legal_advance (b := b.outEofWork) ⟨h.mem, ⟨hfetch, ha⟩, h.load⟩
      · have ha := mt Block.aIsMax_eq_true_iff.mpr hmax
        exact (h.setPhase .outWait).legal ⟨hrun, hfetch, ha⟩
    | sub => exact (h.readOperand.setPhase .execWrite).legal ⟨hrun, hir, rfl, .inr hfetch⟩
    | inp => exact (h.setPhase .inWait).legal ⟨hrun, hfetch⟩

end InStep

/-! ## Legality is an invariant -/

section Legal

variable {b b₁ : Block cfg}

/-- The load port writes only while STATUS is running, which has nothing to record. -/
theorem Block.Legal.loaded (h : b.Legal) (hidle : b.phase = .idle) (hload : b.Loaded b₁) : b₁.Legal := by
  rcases hload with rfl | ⟨hload, t, v, rfl⟩
  · exact h
  · obtain ⟨hrun, -⟩ := h.load hload
    cases t with
    | word addr => exact Block.legal_of_loading (Memory.write_wf h.mem addr v) hrun hload (.inl hidle)
    | regA => exact Block.legal_of_loading (b := b.setA v) h.mem hrun hload (.inl hidle)
    | regC => exact Block.legal_of_loading (b := b.setC v) h.mem hrun hload (.inl hidle)
    | regD => exact Block.legal_of_loading (b := b.setD v) h.mem hrun hload (.inl hidle)

theorem Block.Legal.acceptEdge (h : b.Legal) : b.acceptEdge.Legal := by
  unfold Block.acceptEdge
  split_ifs with hrun
  · exact (h.accept_inStep.setPhase .fetch).legal hrun
  · exact h.accept_inStep.legal_advance

theorem Block.Legal.clearEdge (h : b.Legal) {next : cfg.Elem} (hp : b.phase = .clear next) :
    (b.clearEdge next).Legal := by
  obtain ⟨hrun, hload⟩ := (Block.phaseRecord_clear hp).mp h.phase
  refine Block.legal_of_loading (Memory.write_wf h.mem next _) hrun hload ?_
  unfold Block.clearEdge
  split_ifs
  · exact .inl rfl
  · exact .inr ⟨_, rfl⟩

theorem Block.Legal.clearRest (h : b.Legal) {next : cfg.Elem} (hp : b.phase = .clear next) :
    (b.clearRest next).Legal := by
  obtain ⟨hrun, hload⟩ := (Block.phaseRecord_clear hp).mp h.phase
  exact Block.legal_of_loading (Memory.clearFrom_wf h.mem next) hrun hload (.inl rfl)

theorem Block.Legal.edgeTo {b' : Block cfg} (h : b.Legal) (hedge : b.EdgeTo b') : b'.Legal := by
  cases hedge with
  | reset => exact Block.legal_of_loading (b := b.resetEdge) h.mem rfl rfl (.inr ⟨_, rfl⟩)
  | cleared hp => exact h.clearEdge hp
  | loaded hp hload => exact h.loaded hp hload
  | accepted hp hload => exact (h.loaded hp hload).acceptEdge
  | fetched hp =>
    have hrun := (Block.phaseRecord_fetch hp).mp h.phase
    exact ((h.inStep hp nofun nofun).fetch.setPhase .exec).legal ⟨hrun, rfl⟩
  | executed hp =>
    obtain ⟨hrun, hir⟩ := (Block.phaseRecord_exec hp).mp h.phase
    exact (h.inStep hp nofun nofun).execEdge_legal hrun hir
  | wroteBack hp =>
    obtain ⟨hrun, -⟩ := (Block.phaseRecord_execWrite hp).mp h.phase
    exact ((h.inStep hp nofun nofun).writeBack hrun).legal_advance
  | waits => exact h
  | outAnswered hp ans =>
    obtain ⟨-, hout, hmax⟩ := (Block.phaseRecord_outWait hp).mp h.phase
    exact ((h.inStep hp nofun nofun).outAnswered hout hmax ans).legal_advance
  | inAnswered hp ans =>
    obtain ⟨hrun, hinp⟩ := (Block.phaseRecord_inWait hp).mp h.phase
    exact ((h.inStep hp nofun nofun).inAnswered hrun hinp ans).legal_advance
  | finished hp => exact (h.inStep hp nofun nofun).finish_legal

theorem Block.legal_invariant : Block.Invariant (Block.Legal (cfg := cfg)) where
  edge := Block.Legal.edgeTo
  setChan ch h := h.setChan ch
  clearRest hp h := h.clearRest hp

end Legal

/-- Settles O31, by the micro-state the edge finds the block in. -/
theorem edgeKeepsTheBlockLegal : Obligations.EdgeKeepsTheBlockLegal := fun _ _ _ _ hlegal hedge =>
  hlegal.edgeTo (Block.edge_edgeTo hedge)

/-- Settles O30: the edges that carry out the step keep the block legal, and so does the rest of CLEAR. -/
theorem stepKeepsTheBlockLegal : Obligations.StepKeepsTheBlockLegal := fun _ _ _ hlegal hstep =>
  Block.legal_invariant.step hlegal hstep

/-! ## Every step answers -/

/-- Settles O20: outside CLEAR the edges of the step come to rest at its answer, and CLEAR ends in IDLE. -/
theorem stepAlwaysAnswersANextState : Obligations.StepAlwaysAnswersANextState := by
  intro cfg b
  by_cases hclear : ∃ next, b.phase = .clear next
  · obtain ⟨next, hnext⟩ := hclear
    exact ⟨b.clearRest next, step_clear hnext, .inl rfl⟩
  · obtain ⟨-, b', -, -, -, hstep, hrest⟩ := clockEdgesCarryOutTheStep cfg b (not_exists.mp hclear)
    exact ⟨b', hstep, hrest⟩

/-! ## noIoInfiniteLoop -/

section NeverEntered

variable {b b' : Block cfg}

theorem Block.Loaded.status (h : b.Loaded b') : b'.status = b.status := by
  rcases h with rfl | ⟨-, t, v, rfl⟩
  · rfl
  · cases t <;> rfl

theorem Block.writeBack_status (b : Block cfg) : b.writeBack.status = b.status := by
  unfold Block.writeBack
  split <;> rfl

theorem Block.execEdge_status (b : Block cfg) :
    b.execEdge.status = b.status ∨ b.execEdge.status = .haltedByHaltCommand ∨
      b.execEdge.status = .haltedByEofWrite := by
  unfold Block.execEdge
  cases decode b.ir.val with
  | unmapped => exact .inl rfl
  | instr i =>
    cases i with
    | halt => exact .inr (.inl rfl)
    | ldd | rot | jmp | nop | sub | inp => exact .inl rfl
    | out =>
      dsimp only
      split_ifs
      · exact .inr (.inr rfl)
      · exact .inl rfl

/-- Of the statuses an edge writes, one is `running` and the others are those of the four events that this hardware has
(60_exceptions.md R201). -/
theorem Block.EdgeTo.status_ne_noIoInfiniteLoop (h : b.EdgeTo b') (hb : b.status ≠ .noIoInfiniteLoop) :
    b'.status ≠ .noIoInfiniteLoop := by
  cases h with
  | reset => exact nofun
  | cleared | fetched | waits => exact hb
  | loaded _ hload => exact hload.status ▸ hb
  | accepted _ hload => exact hload.status.trans_ne hb
  | executed =>
    rcases b.execEdge_status with hs | hs | hs
    · exact hs ▸ hb
    · exact hs ▸ nofun
    · exact hs ▸ nofun
  | wroteBack => exact b.writeBack_status.trans_ne hb
  | outAnswered _ ans =>
    cases ans with
    | ok => exact hb
    | failure k => exact nofun
  | inAnswered _ ans =>
    cases ans with
    | byte x => exact hb
    | endOfStream => exact hb
    | failure k => exact nofun
  | finished => exact b.finish_status ▸ hb

theorem Block.status_ne_noIoInfiniteLoop_invariant :
    Block.Invariant (fun b : Block cfg => b.status ≠ .noIoInfiniteLoop) where
  edge hb h := h.status_ne_noIoInfiniteLoop hb
  setChan _ hb := hb
  clearRest _ hb := hb

end NeverEntered

/-- Settles O25: no edge enters the status, so no step does. -/
theorem noIoInfiniteLoopIsNeverEntered : Obligations.NoIoInfiniteLoopIsNeverEntered := fun _ _ _ hb =>
  ⟨Block.status_ne_noIoInfiniteLoop_invariant.step hb,
    fun _ hedge => (Block.edge_edgeTo hedge).status_ne_noIoInfiniteLoop hb⟩

/-! ## A terminal event -/

/-- Of the words a running step can meet, only HALT, OUT and IN end it in a terminal status (41_execution_core.md
R140). -/
theorem terminal_step_decodes {b b' : Block cfg} (hready : b.Ready) (hstep : step ⟨cfg, b⟩ = .next ⟨cfg, b'⟩)
    (hterminal : b'.status ≠ .running) :
    ∃ i : Instr, decode (b.mem.read b.c).val = .instr i ∧ (i = .halt ∨ i = .out ∨ i = .inp) := by
  obtain ⟨hidle, hrun⟩ := hready
  obtain ⟨-, htable⟩ := statusFollowsTheTransitionTable cfg b b' hidle hstep
  have hstatus := htable hrun
  cases hdec : decode (b.mem.read b.c).val with
  | unmapped => rw [hdec] at hstatus; exact absurd hstatus hterminal
  | instr i =>
    refine ⟨i, rfl, ?_⟩
    rw [hdec] at hstatus
    cases i with
    | halt => exact .inl rfl
    | out => exact .inr (.inl rfl)
    | inp => exact .inr (.inr rfl)
    | ldd | rot | jmp | nop | sub => exact absurd hstatus hterminal

/-- An IN that ends in a terminal status was answered by a failure, which leaves MAX in A (43_io.md R184). -/
theorem Block.awaitIn_a_of_terminal {b : Block cfg} (hrun : b.status = .running)
    (hterminal : b.awaitIn.status ≠ .running) : b.awaitIn.a = RingElem.max cfg.toRauConfig := by
  by_cases hfail : ∃ k, b.chan.inSample = some (.failure k)
  · obtain ⟨k, hs⟩ := hfail
    rw [Block.awaitIn_answered hs, Block.finish_a, Block.inAnswered_failure, Block.setA_a]
  · exact absurd ((Block.awaitIn_status_of_no_failure (not_exists.mp hfail)).trans hrun) hterminal

/-- Settles O22: HALT writes STATUS alone; OUT and IN write neither memory nor a pointer, OUT leaves A, and IN has
failed. -/
theorem terminalEventsArePrecise : Obligations.TerminalEventsArePrecise := by
  intro cfg b b' hready hstep hterminal
  obtain ⟨i, hdec, hi⟩ := terminal_step_decodes hready hstep hterminal
  have hexec := (stepRunsTheDecodedInstruction cfg b i hready hdec).symm.trans hstep
  rw [hdec]
  rcases hi with rfl | rfl | rfl
  · cases (exec_halt _).symm.trans hexec
    rw [Block.finish_stopped (b := Block.haltWork _) nofun]
    exact ⟨rfl, rfl, rfl, rfl⟩
  · obtain ⟨w, hwork, hrests⟩ := exec_out_channelWork hexec
    obtain ⟨hc, hd⟩ := hrests.pointers_kept (.inl hterminal)
    obtain ⟨ha, -⟩ := hwork.out rfl
    obtain ⟨ha', -⟩ := hrests.registers
    exact ⟨hc.trans hwork.c, hd.trans hwork.d, hrests.mem.trans hwork.mem, ha'.trans ha⟩
  · obtain ⟨w, hwork, hrests⟩ := exec_inp_channelWork hexec
    obtain ⟨hc, hd⟩ := hrests.pointers_kept (.inl hterminal)
    cases (exec_inp _).symm.trans hexec
    exact ⟨hc.trans hwork.c, hd.trans hwork.d, hrests.mem.trans hwork.mem,
      Block.awaitIn_a_of_terminal (b := b.accept.fetch) hready.2 hterminal⟩

end Sys2Proof.Machine
end

section
/-! PROOFS. Reset and hazards (70_reset_and_hazards.md): the edges of CLEAR from `rst` to the values after reset, the
cycles of a step (R237), and the instructions that read their own word (R235). -/

namespace Sys2Proof.Machine

variable {cfg : Config}

/-! ## CLEAR, one word an edge

CLEAR goes upwards (log 7), so in front of the word `next` every word below it already holds the reset contents. -/

/-- A canonical memory that CLEAR has visited below address `n`. -/
structure Memory.ClearedBelow (n : Nat) (m : Memory cfg) : Prop where
  wf : m.wf
  read : ∀ addr : cfg.Elem, addr.val < n → m.read addr = Memory.unlisted cfg

theorem Memory.ClearedBelow.write_next {m : Memory cfg} {next : cfg.Elem} (h : m.ClearedBelow next.val) :
    (m.write next (Memory.unlisted cfg)).ClearedBelow (next.val + 1) where
  wf := Memory.write_wf h.wf next _
  read addr hlt := by
    by_cases heq : addr = next
    · rw [heq, Memory.read_write_same h.wf]
    · have hbelow : addr.val < next.val := Nat.lt_of_le_of_ne (Nat.le_of_lt_succ hlt) (mt Fin.ext heq)
      rw [Memory.read_write_other _ _ heq, h.read addr hbelow]

/-- A canonical memory that is cleared at every address lists nothing. -/
theorem Memory.ClearedBelow.eq_nil {m : Memory cfg} (h : m.ClearedBelow cfg.toRauConfig.modulus) : m = [] :=
  canonicalMemoriesAreEqualByReads cfg m [] h.wf Memory.nil_wf fun addr => h.read addr addr.isLt

/-- The block in CLEAR about to write the word `next`, with the memory `m` that the edges so far have left. -/
def Block.clearing (b : Block cfg) (m : Memory cfg) (next : cfg.Elem) : Block cfg :=
  (b.resetEdge.setMem m).setPhase (.clear next)

theorem Block.clearing_pins_busy (b : Block cfg) (m : Memory cfg) (next : cfg.Elem) :
    (b.clearing m next).pins.busy = true := by
  simp [Block.pins, Block.clearing]

theorem Block.clearing_edge_of_ne_max (b : Block cfg) (m : Memory cfg) {next : cfg.Elem} {p : PinsIn cfg}
    (hrst : p.rst = false) (hnext : next ≠ RingElem.max cfg.toRauConfig) :
    (b.clearing m next).edge p = .next (b.clearing (m.write next (Memory.unlisted cfg)) (Rau.succ next)) := by
  rw [Block.edge_clear hrst rfl, Block.clearEdge, if_neg hnext]
  rfl

/-- The edge that writes the last word enters IDLE (R230, R237). -/
theorem Block.clearing_edge_max (b : Block cfg) (m : Memory cfg) {p : PinsIn cfg} (hrst : p.rst = false) :
    (b.clearing m (RingElem.max cfg.toRauConfig)).edge p =
      .next ((b.resetEdge.setMem (m.write (RingElem.max cfg.toRauConfig) (Memory.unlisted cfg))).setPhase .idle) := by
  rw [Block.edge_clear hrst rfl, Block.clearEdge, if_pos rfl]
  rfl

/-- One more edge with every pin low, at the end of a run. -/
theorem Block.lowEdges_succ_last {b b' : Block cfg} {n : Nat} (h : Block.lowEdges n b = .next b') :
    Block.lowEdges (n + 1) b = b'.edge (PinsIn.low cfg) := by
  induction n generalizing b with
  | zero =>
    cases h
    unfold Block.lowEdges
    cases b'.edge (PinsIn.low cfg) <;> rfl
  | succ n ih =>
    unfold Block.lowEdges at h ⊢
    split at h
    · exact ih h
    · cases h
    · cases h

theorem RingElem.succ_mk {c : RauConfig} {n : Nat} (h : n + 1 < c.modulus) :
    Rau.succ (⟨n, Nat.lt_of_succ_lt h⟩ : RingElem c) = ⟨n + 1, h⟩ := Fin.ext (Nat.mod_eq_of_lt h)

/-- As long as CLEAR has not visited every word, `n` edges after `rst` it is in front of the word `n`. -/
theorem Block.lowEdges_resetEdge {b : Block cfg} (hwf : b.mem.wf) {n : Nat} (hn : n < cfg.toRauConfig.modulus) :
    ∃ m : Memory cfg, m.ClearedBelow n ∧ Block.lowEdges n b.resetEdge = .next (b.clearing m ⟨n, hn⟩) := by
  induction n with
  | zero => exact ⟨b.mem, ⟨hwf, fun _ h => absurd h (Nat.not_lt_zero _)⟩, rfl⟩
  | succ n ih =>
    obtain ⟨m, hm, hedges⟩ := ih (Nat.lt_of_succ_lt hn)
    have hnext : (⟨n, Nat.lt_of_succ_lt hn⟩ : cfg.Elem) ≠ RingElem.max cfg.toRauConfig :=
      Fin.ne_of_val_ne (Nat.lt_sub_of_add_lt hn).ne
    have hwritten := hm.write_next (next := ⟨n, Nat.lt_of_succ_lt hn⟩)
    refine ⟨_, hwritten, ?_⟩
    rw [Block.lowEdges_succ_last hedges, Block.clearing_edge_of_ne_max b m rfl hnext, RingElem.succ_mk hn]

/-- Settles O34: the last of the END edges writes the word MAX, and the memory is then empty. -/
theorem resetFromAnyBlock : Obligations.ResetFromAnyBlock := by
  intro cfg b p hwf hrst
  refine ⟨b.resetEdge, Block.edge_reset hrst, fun k hk => ?_, ?_⟩
  · obtain ⟨m, -, hedges⟩ := Block.lowEdges_resetEdge hwf hk
    exact ⟨_, hedges, b.clearing_pins_busy m _⟩
  · have hlast : (RingElem.max cfg.toRauConfig).val + 1 = cfg.toRauConfig.modulus :=
      Nat.sub_add_cancel cfg.toRauConfig.modulus_pos
    obtain ⟨m, hm, hedges⟩ := Block.lowEdges_resetEdge hwf (RingElem.max cfg.toRauConfig).isLt
    have hempty := hm.write_next (next := RingElem.max cfg.toRauConfig)
    rw [hlast] at hempty
    rw [← hlast, Block.lowEdges_succ_last hedges, Block.clearing_edge_max b m rfl, hempty.eq_nil]
    rfl

/-! ## The cycles of a step -/

/-- Exactly `n` clock edges take the block to the resting point that `o` answers; between two of them `busy` is 1, and
`step_ack` is 1 before the last alone (41_execution_core.md R143, R145). -/
def Block.TakesCycles (n : Nat) (b : Block cfg) (o : Host.Outcome State Fault Refusal) : Prop :=
  ∃ b' : Block cfg, Block.ticks n b = .next b' ∧ o = .next ⟨cfg, b'⟩ ∧
    ∀ k, 1 ≤ k → k < n → ∃ bk : Block cfg, Block.ticks k b = .next bk ∧ bk.pins.busy = true ∧
      (bk.pins.stepAck = true ↔ k + 1 = n)

/-- One more edge in front, into a block that is busy, and in ADVANCE exactly if one edge is left. -/
theorem Block.TakesCycles.after_tick {n : Nat} {b b₁ : Block cfg} {o : Host.Outcome State Fault Refusal}
    (htick : b.tick = .next b₁) (hbusy : b₁.phase ≠ .idle) (hack : b₁.phase = .advance ↔ n = 1)
    (h : b₁.TakesCycles n o) : b.TakesCycles (n + 1) o := by
  obtain ⟨b', hticks, ho, hbetween⟩ := h
  refine ⟨b', (Block.ticks_succ n htick).trans hticks, ho, fun k hpos hlt => ?_⟩
  match k, hpos with
  | 1, _ =>
    refine ⟨b₁, Block.ticks_succ 0 htick, decide_eq_true hbusy, ?_⟩
    rw [Block.pins, decide_eq_true_iff, hack]
    omega
  | j + 2, _ =>
    obtain ⟨bk, hbk, hbusyk, hackk⟩ := hbetween (j + 1) (by omega) (by omega)
    exact ⟨bk, (Block.ticks_succ (j + 1) htick).trans hbk, hbusyk, hackk.trans (by omega)⟩

theorem Block.tick_fetch {b : Block cfg} (h : b.phase = .fetch) : b.tick = .next (b.fetch.setPhase .exec) := by
  rw [Block.tick_of_not_waiting (by simp [h]) (by simp [h]), Block.edge_fetch b.worldPins_rst h]

theorem Block.tick_exec {b : Block cfg} (h : b.phase = .exec) : b.tick = .next b.execEdge := by
  rw [Block.tick_of_not_waiting (by simp [h]) (by simp [h]), Block.edge_exec b.worldPins_rst h]

theorem Block.tick_execWrite {b : Block cfg} (h : b.phase = .execWrite) :
    b.tick = .next (b.writeBack.setPhase .advance) := by
  rw [Block.tick_of_not_waiting (by simp [h]) (by simp [h]), Block.edge_execWrite b.worldPins_rst h]

theorem Block.tick_advance {b : Block cfg} (h : b.phase = .advance) : b.tick = .next b.finish := by
  rw [Block.tick_of_not_waiting (by simp [h]) (by simp [h]), Block.edge_advance b.worldPins_rst h]

/-- An edge that leaves for ADVANCE is the last but one. -/
theorem Block.TakesCycles.of_tick_advance {b w : Block cfg} (h : b.tick = .next (w.setPhase .advance)) :
    b.TakesCycles 2 (.next ⟨cfg, w.finish⟩) := by
  have hlast : (w.setPhase .advance).TakesCycles 1 (.next ⟨cfg, w.finish⟩) := by
    rw [← Block.finish_setPhase w .advance]
    exact ⟨_, Block.ticks_succ 0 (Block.tick_advance rfl), rfl, fun k hpos hlt => absurd hpos (Nat.not_le.mpr hlt)⟩
  exact .after_tick h nofun (by simp) hlast

/-- `>` and `|` take a second EXEC cycle, the write-back. -/
theorem Block.TakesCycles.of_tick_execWrite {b w : Block cfg} (h : b.tick = .next (w.setPhase .execWrite)) :
    b.TakesCycles 3 (.next ⟨cfg, w.writeBack.finish⟩) := by
  have htick : (w.setPhase .execWrite).tick = .next (w.writeBack.setPhase .advance) := by
    rw [Block.tick_execWrite rfl, Block.writeBack_setPhase]
    rfl
  exact .after_tick h nofun (by simp) (.of_tick_advance htick)

/-- An output channel that answers when first asked takes one cycle of OUTWAIT. -/
theorem Block.outWait_takesCycles {b : Block cfg} (h : b.phase = .outWait) (hanswers : b.chan.outSample ≠ none) :
    b.TakesCycles 2 (.next ⟨cfg, b.awaitOut⟩) := by
  obtain ⟨ans, hs⟩ := Option.ne_none_iff_exists'.mp hanswers
  have htick := Block.tick_outWait h
  rw [Block.worldPins, hs, Block.outWaitEdge_answered] at htick
  rw [Block.awaitOut_answered hs]
  exact .of_tick_advance htick

/-- An input channel that answers when first asked takes one cycle of INWAIT. -/
theorem Block.inWait_takesCycles {b : Block cfg} (h : b.phase = .inWait) (hanswers : b.chan.inSample ≠ none) :
    b.TakesCycles 2 (.next ⟨cfg, b.awaitIn⟩) := by
  obtain ⟨ans, hs⟩ := Option.ne_none_iff_exists'.mp hanswers
  have htick := Block.tick_inWait h
  rw [Block.worldPins, Block.inWaitEdge_withOut, hs, Block.inWaitEdge_answered] at htick
  rw [Block.awaitIn_answered hs]
  exact .of_tick_advance htick

theorem Block.TakesCycles.of_tick_outWait {b : Block cfg} (h : b.tick = .next (b.setPhase .outWait))
    (hanswers : b.chan.outSample ≠ none) : b.TakesCycles 3 (.next ⟨cfg, b.awaitOut⟩) := by
  have hwait := Block.outWait_takesCycles (b := b.setPhase .outWait) rfl hanswers
  rw [Block.awaitOut_setPhase] at hwait
  exact .after_tick h nofun (by simp) hwait

theorem Block.TakesCycles.of_tick_inWait {b : Block cfg} (h : b.tick = .next (b.setPhase .inWait))
    (hanswers : b.chan.inSample ≠ none) : b.TakesCycles 3 (.next ⟨cfg, b.awaitIn⟩) := by
  have hwait := Block.inWait_takesCycles (b := b.setPhase .inWait) rfl hanswers
  rw [Block.awaitIn_setPhase] at hwait
  exact .after_tick h nofun (by simp) hwait

/-- The cycles of R237 beyond the four that every step takes: the write-back of ROT and SUB, and the wait of IN and of
OUT below MAX; `a` is the accumulator. -/
def extraCycles (a : cfg.Elem) : Decoded → Nat
  | .instr .rot => 1
  | .instr .sub => 1
  | .instr .inp => 1
  | .instr .out => if a = RingElem.max cfg.toRauConfig then 0 else 1
  | _ => 0

/-- From EXEC on: one cycle of EXEC, those beyond, and one of ADVANCE. -/
theorem Block.exec_takesCycles {b : Block cfg} (h : b.phase = .exec)
    (hout : decode b.ir.val = .instr .out → b.a ≠ RingElem.max cfg.toRauConfig → b.chan.outSample ≠ none)
    (hinp : decode b.ir.val = .instr .inp → b.chan.inSample ≠ none) :
    b.TakesCycles (extraCycles b.a (decode b.ir.val) + 2) (State.runLatched ⟨cfg, b⟩) := by
  have htick := Block.tick_exec h
  unfold Block.execEdge at htick
  cases hdec : decode b.ir.val with
  | unmapped =>
    rw [hdec] at htick
    rw [State.runLatched_unmapped hdec]
    exact .of_tick_advance htick
  | instr i =>
    rw [hdec] at htick
    rw [State.runLatched_instr hdec]
    cases i with
    | halt | ldd | jmp | nop => exact .of_tick_advance htick
    | rot | sub =>
      have hwrite := Block.TakesCycles.of_tick_execWrite htick
      simp only [Block.writeBack, Block.readOperand_eq, Block.setMdr_ir, hdec] at hwrite
      exact hwrite
    | out =>
      rw [extraCycles]
      by_cases hmax : b.a = RingElem.max cfg.toRauConfig
      · have hmaxb := Block.aIsMax_eq_true_iff.mpr hmax
        rw [exec_out_max hmaxb, if_pos hmax]
        simp only [hmaxb, if_true] at htick
        exact .of_tick_advance htick
      · have hmaxb := mt Block.aIsMax_eq_true_iff.mp hmax
        rw [exec_out_await hmaxb, if_neg hmax]
        simp only [hmaxb] at htick
        exact .of_tick_outWait htick (hout hdec hmax)
    | inp => exact .of_tick_inWait htick (hinp hdec)

/-- The accepting edge and FETCH come before EXEC. -/
theorem Block.ready_takesCycles {b : Block cfg} (hready : b.Ready)
    (hout : decode (b.mem.read b.c).val = .instr .out → b.a ≠ RingElem.max cfg.toRauConfig → b.chan.outSample ≠ none)
    (hinp : decode (b.mem.read b.c).val = .instr .inp → b.chan.inSample ≠ none) :
    b.TakesCycles (extraCycles b.a (decode (b.mem.read b.c).val) + 4) (step ⟨cfg, b⟩) := by
  obtain ⟨hidle, hrun⟩ := hready
  have haccept : b.tick = .next (b.accept.setPhase .fetch) := by
    rw [Block.tick_idle hidle, Block.acceptEdge, if_pos hrun]
  have hfetch : (b.accept.setPhase .fetch).tick = .next (b.accept.fetch.setPhase .exec) := Block.tick_fetch rfl
  have hexec := Block.exec_takesCycles (b := b.accept.fetch.setPhase .exec) rfl hout hinp
  rw [State.runLatched_setPhase, ← step_ready_fetched ⟨hidle, hrun⟩] at hexec
  exact .after_tick haccept nofun (by simp) (.after_tick hfetch nofun (by simp) hexec)

/-- Settles O36: the row of R237 is four cycles and those beyond. -/
theorem stepTakesTheCyclesOfTheTable : Obligations.StepTakesTheCyclesOfTheTable := by
  intro cfg b b' n hready hout hinp hstep hn
  obtain ⟨b'', hticks, hstep', hbetween⟩ := Block.ready_takesCycles hready hout hinp
  cases hstep.symm.trans hstep'
  have hcycles : n = extraCycles b.a (decode (b.mem.read b.c).val) + 4 := by
    rw [hn]
    cases decode (b.mem.read b.c).val with
    | unmapped => rfl
    | instr i =>
      cases i with
      | out => dsimp only [extraCycles]; split_ifs <;> rfl
      | halt | ldd | rot | jmp | nop | sub | inp => rfl
  rw [hcycles]
  exact ⟨hticks, hbetween⟩

/-! ## An instruction that reads its own word -/

/-- No instruction's word is MAX, so its successor does not wrap. -/
theorem succ_encodeWord_val (cfg : Config) (i : Instr) : (Rau.succ (encodeWord cfg i)).val = encode i + 1 :=
  Nat.mod_eq_of_lt ((Nat.succ_lt_succ (encode_lt i)).trans_le cfg.end_ge_257)

/-- With D = C the operand is the word that runs, and LDD, JMP, ROT and SUB use it as fetched (20_memory.md R58). -/
theorem step_own_word {b b' : Block cfg} {i : Instr} (hready : b.Ready) (hdc : b.d = b.c) (hword : b.FetchIs i)
    (hstep : step ⟨cfg, b⟩ = .next ⟨cfg, b'⟩) :
    exec i ⟨cfg, b.accept.fetch⟩ = .next ⟨cfg, b'⟩ ∧ b.mem.read b.d = encodeWord cfg i := by
  have hdec := decode_eq_instr_iff.mpr hword
  exact ⟨(stepRunsTheDecodedInstruction cfg b i hready hdec).symm.trans hstep, hdc ▸ eq_encodeWord_iff.mpr hword⟩

/-- What ROT and SUB store is read back at D (40_ring_unit.md R110), and the step stays as running as it was. -/
theorem Block.finish_storeResult_read {b : Block cfg} (hwf : b.mem.wf) (z : cfg.Elem) :
    (b.readOperand.storeResult z).finish.mem.read b.d = z ∧ (b.readOperand.storeResult z).finish.status = b.status := by
  obtain ⟨hstatus, -, -, -, -, hread⟩ := Block.finish_storeResult_frame b z
  exact ⟨(hread hwf).trans (Block.finish_a _), hstatus⟩

/-- Settles O27: LDD and JMP move on past their own word, and ROT and SUB write it back. -/
theorem instructionsOnTheirOwnWord : Obligations.InstructionsOnTheirOwnWord := by
  refine ⟨fun cfg b b' hready hwf hdc hstep => ?own, ?canonical, decode_eq_unmapped_of_ge (by decide)⟩
  case canonical =>
    rw [Rau.rotr_val]
    decide
  have hrun : b.status = .running := hready.2
  refine ⟨fun hldd => ?_, fun hjmp => ?_, fun hrot => ?_, fun hsub => ?_⟩
  · obtain ⟨hexec, hoperand⟩ := step_own_word (i := .ldd) hready hdc hldd hstep
    cases (exec_ldd _).symm.trans hexec
    rw [Block.finish_running (b := b.accept.fetch.lddWork) hrun]
    change (Rau.succ (b.mem.read b.d)).val = encode .ldd + 1
    rw [hoperand, succ_encodeWord_val]
  · obtain ⟨hexec, hoperand⟩ := step_own_word (i := .jmp) hready hdc hjmp hstep
    cases (exec_jmp _).symm.trans hexec
    rw [Block.finish_running (b := b.accept.fetch.jmpWork) hrun]
    change (Rau.succ (b.mem.read b.d)).val = encode .jmp + 1
    rw [hoperand, succ_encodeWord_val]
  · obtain ⟨hexec, hoperand⟩ := step_own_word (i := .rot) hready hdc hrot hstep
    cases (exec_rot _).symm.trans hexec
    obtain ⟨hread, hstatus⟩ := Block.finish_storeResult_read (b := b.accept.fetch) hwf (Rau.rotr (b.mem.read b.d))
    rw [← hoperand, ← hdc]
    exact ⟨hread, hstatus.trans hrun⟩
  · obtain ⟨hexec, hoperand⟩ := step_own_word (i := .sub) hready hdc hsub hstep
    cases (exec_sub _).symm.trans hexec
    obtain ⟨hread, hstatus⟩ := Block.finish_storeResult_read (b := b.accept.fetch) hwf (Rau.dsub b.a (b.mem.read b.d))
    rw [← hoperand, ← hdc]
    exact ⟨hread, hstatus.trans hrun⟩

end Sys2Proof.Machine
end

section
/-! PROOFS. The record of the channels (log 5): the one sample that a transaction takes of its own port. -/

namespace Sys2Proof.Machine

variable {cfg : Config}

/-! An answer takes no sample: Ok adds the byte written, and any other answer leaves the channels alone. -/

@[simp] theorem Block.outAnswered_outSamples (b : Block cfg) (ans : OutAnswer) :
    (b.outAnswered ans).chan.outSamples = b.chan.outSamples := by
  cases ans <;> rfl

@[simp] theorem Block.outAnswered_outTaken (b : Block cfg) (ans : OutAnswer) :
    (b.outAnswered ans).chan.outTaken = b.chan.outTaken := by
  cases ans <;> rfl

@[simp] theorem Block.inAnswered_chan (b : Block cfg) (ans : InAnswer) : (b.inAnswered ans).chan = b.chan := by
  cases ans <;> rfl

/-- The output port is sampled once, whether it is silent or answers. -/
theorem Block.awaitOut_takes_one_sample (b : Block cfg) :
    b.awaitOut.chan.outSamples = b.chan.outSamples.tail ∧ b.awaitOut.chan.outTaken = b.chan.outTaken + 1 := by
  cases hs : b.chan.outSample with
  | none => simp [Block.awaitOut_silent hs]
  | some ans => simp [Block.awaitOut_answered hs]

/-- The input port is sampled once, whether it is silent or answers, and its channel record moves in no other way. -/
theorem Block.awaitIn_chan (b : Block cfg) : b.awaitIn.chan = b.chan.takeIn := by
  cases hs : b.chan.inSample with
  | none => simp [Block.awaitIn_silent hs]
  | some ans => simp [Block.awaitIn_answered hs]

/-- Settles O12: OUT with A = MAX only ends the run, and every other transaction goes through one sample of its
port. -/
theorem transactionTakesOneSample : Obligations.TransactionTakesOneSample := by
  refine fun cfg b b' => ⟨fun hout => ⟨fun hmax => ?_, fun hmax => ?_⟩, fun hinp => ?_⟩
  · cases (exec_out_max (Block.aIsMax_eq_true_iff.mpr hmax)).symm.trans hout
    exact Block.finish_chan b.outEofWork
  · cases (exec_out_await (mt Block.aIsMax_eq_true_iff.mp hmax)).symm.trans hout
    exact b.awaitOut_takes_one_sample
  · cases (exec_inp b).symm.trans hinp
    rw [Block.awaitIn_chan]
    exact ⟨rfl, rfl⟩

end Sys2Proof.Machine
end
